-- ==== Sys2Proof/Word.lean ====
section
/-! DEFINITION. The data types of 00_scope.md R9 to R11: bytes, words, blocks and registers. A word and a block are byte
sequences of fixed length, never integers (R11, 20_memory.md R60), so no byte order arises. -/

namespace Sys2Proof

/-- A byte: an unsigned 8-bit value (R9); bit 0 is the least significant (R10). -/
abbrev Byte := BitVec 8

/-- A word: a sequence of exactly 4 bytes (R11). -/
abbrev Word := Vector Byte 4

/-- A block: a sequence of exactly 16 bytes (R11); a State, an IV, a chain value or a round key. -/
abbrev Block := Vector Byte 16

/-- A 32-bit register or a command word (R8, R90). -/
abbrev Reg32 := BitVec 32

end Sys2Proof
end

