-- ==== Sys2Proof/Syntax.lean ====
section
/-! DEFINITION. The sixteen commands (30_encoding.md R93), one constructor per row of spec/opcode_table.json. An operand is
an unsigned byte (R92), so a constructor can hold nothing the encoding cannot. -/

namespace Sys2Proof

/-- A command. The constructors stand in the order of the table of R93. -/
inductive Instr where
  /-- GFMUL a, b: `RES <- multiply(a, b)` (R119). -/
  | gfmul (a b : Byte)
  /-- KEXP: build the key schedule (R138). -/
  | kexp
  /-- SUBB: SubBytes on ST (R150). -/
  | subb
  /-- SHROW: ShiftRows on ST (R151). -/
  | shrow
  /-- MIXC: MixColumns on ST (R153). -/
  | mixc
  /-- ADDRK r: AddRoundKey with round key `r` (R154). -/
  | addrk (r : Byte)
  /-- ISUBB: InvSubBytes on ST (R155). -/
  | isubb
  /-- ISHROW: InvShiftRows on ST (R156). -/
  | ishrow
  /-- IMIXC: InvMixColumns on ST (R157). -/
  | imixc
  /-- ENCB: encrypt the block in ST (R171). -/
  | encb
  /-- DECB: decrypt the block in ST (R173). -/
  | decb
  /-- CBCENC: pad, chain and encrypt the input buffer (R182). -/
  | cbcenc
  /-- CBCDEC: check, chain, decrypt and strip the input buffer (R184). -/
  | cbcdec
  /-- PAD: pad the input buffer (R202). -/
  | pad
  /-- STRIP: check and remove the padding of the input buffer (R204). -/
  | strip
  /-- IVGEN: load IV with drawn bytes (R211). -/
  | ivgen
deriving DecidableEq, Repr

end Sys2Proof
end

