-- ==== Sys2Proof/WellFormed.lean ====
section
/-! DEFINITION. Well-formed command statements (30_encoding.md R97): the mnemonics, how many operands each takes, and the
range of an operand ("An operand out of 0..255 is an assembly error, not a command"). An `Instr` is well formed when the
statement that writes it is; its constructors already hold what the checks ask. -/

namespace Sys2Proof

/-- The sixteen mnemonics of R93. -/
inductive Mnemonic where
  | gfmul | kexp | subb | shrow | mixc | addrk | isubb | ishrow | imixc
  | encb | decb | cbcenc | cbcdec | pad | strip | ivgen
deriving DecidableEq, Repr

/-- The mnemonic of a command. -/
def Instr.mnemonic : Instr → Mnemonic
  | .gfmul _ _ => .gfmul
  | .kexp => .kexp
  | .subb => .subb
  | .shrow => .shrow
  | .mixc => .mixc
  | .addrk _ => .addrk
  | .isubb => .isubb
  | .ishrow => .ishrow
  | .imixc => .imixc
  | .encb => .encb
  | .decb => .decb
  | .cbcenc => .cbcenc
  | .cbcdec => .cbcdec
  | .pad => .pad
  | .strip => .strip
  | .ivgen => .ivgen

/-- How many operands a statement with this mnemonic has (the "mnemonic" column of R93): two in format AB, one in
format A, none in format Z. -/
def Mnemonic.operandCount : Mnemonic → Nat
  | .gfmul => 2
  | .addrk => 1
  | .kexp | .subb | .shrow | .mixc | .isubb | .ishrow | .imixc => 0
  | .encb | .decb | .cbcenc | .cbcdec | .pad | .strip | .ivgen => 0

/-- A command statement of a host program as written: a mnemonic and its operands as numbers (R97). -/
structure CommandText where
  mnemonic : Mnemonic
  operands : List Nat
deriving DecidableEq, Repr

/-- R97: the operands the mnemonic takes, as many as it takes. -/
def CommandText.countOk (t : CommandText) : Bool :=
  t.operands.length == t.mnemonic.operandCount

/-- R97: every operand in 0..255. -/
def CommandText.rangeOk (t : CommandText) : Bool :=
  t.operands.all (· < 256)

/-- A statement the notation of R97 accepts. -/
def CommandText.wellFormed (t : CommandText) : Bool :=
  t.countOk && t.rangeOk

/-- The statement that writes a command. -/
def Instr.text : Instr → CommandText
  | .gfmul a b => ⟨.gfmul, [a.toNat, b.toNat]⟩
  | .addrk r => ⟨.addrk, [r.toNat]⟩
  | i => ⟨i.mnemonic, []⟩

/-- A command is well formed when the statement that writes it is. -/
def Instr.wellFormed (i : Instr) : Bool :=
  i.text.wellFormed

end Sys2Proof
end

