-- ==== Sys2Proof/Decode.lean ====
section
/-! DEFINITION. The command word (30_encoding.md R90 to R96): its fields, the opcode map, the decoder of R94, total on the
2^32 words and rejecting by name, and after it the encoder written from the same map. -/

namespace Sys2Proof

/-- The three formats of R91: which operand fields a command uses. -/
inductive Format where
  /-- Format Z: A and B must be 0x00. -/
  | formatZ
  /-- Format A: A is the operand, B must be 0x00. -/
  | formatA
  /-- Format AB: both are operands. -/
  | formatAB
deriving DecidableEq, Repr

/-- Why a word is no command (R94). Each is reported to the host as IllegalCommand (R230). -/
inductive IllegalWord where
  /-- The reserved field RSV is not 0x00. -/
  | reservedNonzero
  /-- OP is not in the table of R93. -/
  | opcodeUnassigned
  /-- An operand field the format does not use is not 0x00. -/
  | unusedOperandNonzero
deriving DecidableEq, Repr

/-- OP, bits 7:0 (R90). -/
def opField (cw : Reg32) : Byte := cw.extractLsb' 0 8
/-- A, bits 15:8 (R90). -/
def aField (cw : Reg32) : Byte := cw.extractLsb' 8 8
/-- B, bits 23:16 (R90). -/
def bField (cw : Reg32) : Byte := cw.extractLsb' 16 8
/-- RSV, bits 31:24 (R90). -/
def rsvField (cw : Reg32) : Byte := cw.extractLsb' 24 8

/-- The opcode column of R93. -/
def Mnemonic.opcode : Mnemonic → Byte
  | .gfmul => 0x10
  | .kexp => 0x20
  | .subb => 0x30
  | .shrow => 0x31
  | .mixc => 0x32
  | .addrk => 0x33
  | .isubb => 0x38
  | .ishrow => 0x39
  | .imixc => 0x3A
  | .encb => 0x40
  | .decb => 0x41
  | .cbcenc => 0x50
  | .cbcdec => 0x51
  | .pad => 0x60
  | .strip => 0x61
  | .ivgen => 0x70

/-- The format column of R93. -/
def Mnemonic.format : Mnemonic → Format
  | .gfmul => .formatAB
  | .addrk => .formatA
  | .kexp | .subb | .shrow | .mixc | .isubb | .ishrow | .imixc => .formatZ
  | .encb | .decb | .cbcenc | .cbcdec | .pad | .strip | .ivgen => .formatZ

/-- The rows of R93, in order. -/
def Mnemonic.all : List Mnemonic :=
  [.gfmul, .kexp, .subb, .shrow, .mixc, .addrk, .isubb, .ishrow, .imixc] ++
    [.encb, .decb, .cbcenc, .cbcdec, .pad, .strip, .ivgen]

/-- The row of R93 with this opcode, if there is one. -/
def mnemonicOfOpcode (op : Byte) : Option Mnemonic :=
  Mnemonic.all.find? fun m => m.opcode == op

/-- R91: the operand fields the format does not use are 0x00. -/
def Format.unusedZero : Format → Byte → Byte → Bool
  | .formatZ, a, b => a == 0 && b == 0
  | .formatA, _, b => b == 0
  | .formatAB, _, _ => true

/-- The command with this mnemonic and these operand fields (R92: the fields as they stand). -/
def Mnemonic.command : Mnemonic → (a b : Byte) → Instr
  | .gfmul, a, b => .gfmul a b
  | .kexp, _, _ => .kexp
  | .subb, _, _ => .subb
  | .shrow, _, _ => .shrow
  | .mixc, _, _ => .mixc
  | .addrk, a, _ => .addrk a
  | .isubb, _, _ => .isubb
  | .ishrow, _, _ => .ishrow
  | .imixc, _, _ => .imixc
  | .encb, _, _ => .encb
  | .decb, _, _ => .decb
  | .cbcenc, _, _ => .cbcenc
  | .cbcdec, _, _ => .cbcdec
  | .pad, _, _ => .pad
  | .strip, _, _ => .strip
  | .ivgen, _, _ => .ivgen

/-- `Decode(cw)` of R94, its checks in its order. -/
def decode (cw : Reg32) : Except IllegalWord Instr :=
  if rsvField cw ≠ 0 then .error .reservedNonzero
  else
    match mnemonicOfOpcode (opField cw) with
    | none => .error .opcodeUnassigned
    | some m =>
      if m.format.unusedZero (aField cw) (bField cw) then .ok (m.command (aField cw) (bField cw))
      else .error .unusedOperandNonzero

/-- Field A of a command's word: its first operand, 0x00 where the format has none. -/
def Instr.fieldA : Instr → Byte
  | .gfmul a _ => a
  | .addrk r => r
  | _ => 0

/-- Field B of a command's word: its second operand, 0x00 where the format has none. -/
def Instr.fieldB : Instr → Byte
  | .gfmul _ b => b
  | _ => 0

/-- The command's word, `OP + 256×A + 65536×B` with RSV zero (R90). -/
def encode (i : Instr) : Reg32 :=
  0#8 ++ i.fieldB ++ i.fieldA ++ i.mnemonic.opcode

/-- The `match` column of R93. -/
def Mnemonic.matchBits : Mnemonic → Reg32
  | .gfmul => 0x00000010
  | .kexp => 0x00000020
  | .subb => 0x00000030
  | .shrow => 0x00000031
  | .mixc => 0x00000032
  | .addrk => 0x00000033
  | .isubb => 0x00000038
  | .ishrow => 0x00000039
  | .imixc => 0x0000003A
  | .encb => 0x00000040
  | .decb => 0x00000041
  | .cbcenc => 0x00000050
  | .cbcdec => 0x00000051
  | .pad => 0x00000060
  | .strip => 0x00000061
  | .ivgen => 0x00000070

/-- The `mask` column of R93. -/
def Mnemonic.maskBits : Mnemonic → Reg32
  | .gfmul => 0xFF0000FF
  | .addrk => 0xFFFF00FF
  | .kexp | .subb | .shrow | .mixc | .isubb | .ishrow | .imixc => 0xFFFFFFFF
  | .encb | .decb | .cbcenc | .cbcdec | .pad | .strip | .ivgen => 0xFFFFFFFF

/-- The command a well-formed statement of R97 issues; a statement with a wrong operand is an assembly error. -/
def assemble (t : CommandText) : Option Instr :=
  if t.wellFormed then
    some (t.mnemonic.command (BitVec.ofNat 8 (t.operands.getD 0 0)) (BitVec.ofNat 8 (t.operands.getD 1 0)))
  else none

/-- The word of `nbits` bits numbered as spec/opcode_table.json numbers them: a command is one 32-bit word (R96), bit 0
its least significant bit, and the bits from `nbits` on are zero. -/
def commandWord (nbits w : Nat) : Reg32 :=
  BitVec.ofNat 32 (w % 2 ^ nbits)

/-- What the decoder reads from such a word. No command is longer than 32 bits (R96), so a longer word is none (log 15). -/
def decodeTableWord (nbits w : Nat) : Option Instr :=
  if nbits ≤ 32 then (decode (commandWord nbits w)).toOption else none

end Sys2Proof
end

