-- ==== Sys2Proof/Config.lean ====
section
/-! DEFINITION. What the spec leaves to an implementation: the parameter BUF_MAX (00_scope.md R8), and the values it
leaves open (R15, 10_state.md R44), which are opaque constants: nothing can be proved of what they are. -/

namespace Sys2Proof

/-- One implementation's parameters. R8 leaves `BUF_MAX` open within the bounds of `legal`; a `Config` carries them, so
every machine of the model is one the spec allows (log 6). -/
structure Config where
  /-- The largest plaintext in bytes, `BUF_MAX`. -/
  bufMax : Nat
  /-- R8: a multiple of 16, at least 32, and `BUF_MAX + 16 < 2^32`. -/
  legal : bufMax % 16 = 0 ∧ 32 ≤ bufMax ∧ bufMax + 16 < 2 ^ 32
deriving DecidableEq, Repr

/-- FREE VALUE (R15, 47_iv.md R210, log 2): byte `i` of the entropy source's answer number `n`. Any byte; no law. -/
opaque Config.entropyByte (n i : Nat) : Byte

/-- FREE VALUE (10_state.md R44, log 3): what `IBUF[i]` holds after reset number `n` until the host writes it. -/
opaque Config.ibufAtReset (n i : Nat) : Byte

/-- FREE VALUE (10_state.md R44, log 4): what the store holds at `OBUF[i]` after reset number `n` until a command
writes it; no host read can show it. -/
opaque Config.obufAtReset (n i : Nat) : Byte

/-- The implementation `State.reset` stands for: `BUF_MAX = 64`, the value 95_test_vectors.md uses.
DESIGN CHOICE (log 6): the spec leaves the value open. -/
def Config.ofVectors : Config := ⟨64, by decide⟩

end Sys2Proof
end

