-- ==== Sys2Proof/Machine/State.lean ====
section
/-! DEFINITION. The machine's state: every element of 10_state.md R22 ("The complete architectural state of one core
instance"), and beside it the model's own fields for what stands outside the core (the host, the entropy source, the
reset input, the parameter). Reset values by R44. -/

namespace Sys2Proof.Machine

/-- The CBC state machine's phase (10_state.md R37). The fourth 2-bit value never occurs. -/
inductive Phase where
  /-- 0: no CBC command yet, or the last one aborted. -/
  | init
  /-- 1: inside a CBC command's block loop; never seen between commands. -/
  | chaining
  /-- 2: the last CBC command succeeded. -/
  | done
deriving DecidableEq, Repr

/-- The error kinds (60_exceptions.md R221). -/
inductive ErrorKind where
  /-- KEXP: KEYLEN is not 16, 24 or 32 (R222). -/
  | invalidKeySize
  /-- CBCDEC: ILEN is not a multiple of 16 (R223). -/
  | invalidCipherText
  /-- STRIP: ILEN is not a multiple of 16 (R224). -/
  | invalidSize
  /-- STRIP, CBCDEC: the buffer to strip is empty (R225). -/
  | emptyBuffer
  /-- STRIP, CBCDEC: the last byte is 0 or greater than 16 (R226). -/
  | invalidPaddingSize
  /-- STRIP, CBCDEC: some of the last padLen bytes differ from padLen (R228). -/
  | invalidPaddingBytes
  /-- Reserved; no command raises it (R227). -/
  | keyExpansionFailure
  /-- The word is not a command (R230). -/
  | illegalCommand
  /-- A command that needs round keys was issued with no schedule (R231). -/
  | noKeySchedule
  /-- ADDRK: the index is greater than NR (R233). -/
  | badRoundIndex
  /-- The input is longer than the buffer allows (R232). -/
  | lengthOverflow
deriving DecidableEq, Repr

/-- A failure with the value it carries, `E(info)` of 00_scope.md R14. -/
structure Failure where
  kind : ErrorKind
  info : Reg32
deriving DecidableEq, Repr

/-- Which registers the abort of 60_exceptions.md R240 clears, by the command that failed. -/
inductive AbortScope where
  /-- Every command but the four below, and an illegal word: only ERR and ERRINFO are written. -/
  | errorOnly
  /-- PAD and STRIP: OLEN is cleared. -/
  | output
  /-- CBCENC and CBCDEC: OLEN, PHASE, BLK, ST and CHAIN are cleared. -/
  | chaining
deriving DecidableEq, Repr

/-- The seven data spaces (20_memory.md R61). -/
inductive Space where
  | key | iv | st | ks | chain | ibuf | obuf
deriving DecidableEq, Repr

/-- What the outside does to the core: a host transaction on one of the three ports (10_state.md R20), or the reset
input (70_reset_and_hazards.md R260). -/
inductive HostEvent where
  /-- `RegRead(n)`, written `GET reg` (R97). -/
  | regRead (n : Nat)
  /-- `RegWrite(n, v)`, written `SET reg, v`. -/
  | regWrite (n : Nat) (v : Reg32)
  /-- `HostRead(space, index)`, written `RD space[i]`. -/
  | dataRead (space index : Nat)
  /-- `HostWrite(space, index, byte)`, written `WR space[i], v`. -/
  | dataWrite (space index : Nat) (v : Byte)
  /-- `Issue(cw)`, written `MNEMONIC a, b`. -/
  | issue (cw : Reg32)
  /-- The reset input is asserted and released. -/
  | reset
deriving DecidableEq, Repr

/-- What a transaction answers the host; `ok = false` is the error response (20_memory.md R66, 10_state.md R43). -/
inductive Response where
  /-- The answer of `RegRead`. -/
  | regValue (ok : Bool) (v : Reg32)
  /-- The answer of `HostRead`. -/
  | byteValue (ok : Bool) (v : Byte)
  /-- The answer of `RegWrite` or `HostWrite`. -/
  | written (ok : Bool)
  /-- `Issue` returned: the command has ended (R20). It carries no value; the result is in ERR. -/
  | commandEnded
deriving DecidableEq, Repr

/-- A buffer store: the bytes written since reset as (index, byte) cells, indices strictly rising. An index with no cell
was never written since reset; what it holds is the free value of logs 3 and 4, supplied where the store is read. -/
abbrev Memory := List Host.Cell

/-- The machine's state. -/
structure State where
  /-- KEY, 32 bytes (R24). -/
  key : Vector Byte 32
  /-- KEYLEN (R22), register 3. -/
  keyLen : Reg32
  /-- KS, 60 words (R29). -/
  ks : Vector Word 60
  /-- NK (R31), register 7. -/
  nk : Byte
  /-- NR (R31), register 8. -/
  nr : Byte
  /-- KVALID (R41), STATUS bit 0. -/
  kvalid : Bool
  /-- ST, 16 bytes (R25). -/
  st : Block
  /-- IV, 16 bytes (R26). -/
  iv : Block
  /-- CHAIN, 16 bytes (R27). -/
  chain : Block
  /-- IBUF (R32). -/
  ibuf : Memory
  /-- ILEN (R32), register 4. -/
  ilen : Reg32
  /-- OBUF (R33). -/
  obuf : Memory
  /-- OLEN (R33), register 5. -/
  olen : Reg32
  /-- RES (R28), register 6. -/
  res : Byte
  /-- PHASE (R37), STATUS bits 3:2. -/
  phase : Phase
  /-- BLK (R38), register 9. -/
  blk : Reg32
  /-- ERR (R39), register 1. -/
  err : Byte
  /-- ERRINFO (R40), register 2. -/
  errInfo : Reg32
  /-- The model's own: the implementation's parameter BUF_MAX (log 6). No step changes it. -/
  cfg : Config
  /-- The model's own: how many draws the entropy source has answered (log 2). -/
  draws : Nat
  /-- The model's own: how many resets since the first; selects the free contents of IBUF and OBUF (log 3). -/
  resets : Nat
  /-- The model's own: the host transactions and resets to come, oldest first (log 1). -/
  inputs : List HostEvent
  /-- The model's own: what the transactions answered, oldest first (log 1). -/
  responses : List Response
deriving DecidableEq, Repr

/-- The reasons a step could stop with a fault. None does: every accepted command ends (70_reset_and_hazards.md R274),
and an error is a result in ERR, not a stop (R220). -/
inductive Fault where
  /-- The source's "internal invariant violation (should be unreachable ...)" (R227). Raised by no definition: R227 says no
  state of the hardware leads to it. Safe. -/
  | keyExpansionDefect
deriving DecidableEq, Repr

/-- The reasons the model gives an instruction no meaning. -/
inductive Refusal where
  /-- A command the model has no meaning for yet, by its mnemonic; raised by `exec`'s refused arms only (there are none).
  Safe. -/
  | notModelled (mnemonic : String)
deriving DecidableEq, Repr

/-- What a meaning or a step answers. -/
abbrev Result := Host.Outcome State Fault Refusal

/-- The state after reset (R44). KS is unspecified there and unobservable (log 5: zero words); IBUF and OBUF hold free
values, so no cell is listed (logs 3, 4). The last five fields are the model's own (logs 1, 2, 3, 6). -/
def State.reset : State where
  key := Vector.replicate 32 0
  keyLen := 0
  ks := Vector.replicate 60 (Vector.replicate 4 0)
  nk := 0
  nr := 0
  kvalid := false
  st := Vector.replicate 16 0
  iv := Vector.replicate 16 0
  chain := Vector.replicate 16 0
  ibuf := []
  ilen := 0
  obuf := []
  olen := 0
  res := 0
  phase := .init
  blk := 0
  err := 0
  errInfo := 0
  cfg := Config.ofVectors
  draws := 0
  resets := 0
  inputs := []
  responses := []

end Sys2Proof.Machine
end

