-- ==== Sys2Proof/Machine/Flags.lean ====
section
/-! DEFINITION. The status and error registers as the host sees them: error codes (60_exceptions.md R221), the PHASE bits
(10_state.md R37) and the STATUS byte (R41). The core has no arithmetic condition codes (R41). -/

namespace Sys2Proof.Machine

/-- The code of an error kind in ERR (R221). -/
def ErrorKind.code : ErrorKind → Byte
  | .invalidKeySize => 0x01
  | .invalidCipherText => 0x02
  | .invalidSize => 0x03
  | .emptyBuffer => 0x04
  | .invalidPaddingSize => 0x05
  | .invalidPaddingBytes => 0x06
  | .keyExpansionFailure => 0x07
  | .illegalCommand => 0x80
  | .noKeySchedule => 0x81
  | .badRoundIndex => 0x82
  | .lengthOverflow => 0x83

/-- PHASE as its two bits (R37). -/
def Phase.bits : Phase → BitVec 2
  | .init => 0
  | .chaining => 1
  | .done => 2

/-- STATUS.ERRF: 1 exactly when `ERR ≠ 0x00` (R41). -/
def errFlag (s : State) : Bool :=
  s.err != 0

/-- STATUS: bit 0 KVALID, bit 1 ERRF, bits 3:2 PHASE, bits 7:4 read as 0 (R41). -/
def statusByte (s : State) : Byte :=
  0#4 ++ s.phase.bits ++ BitVec.ofBool (errFlag s) ++ BitVec.ofBool s.kvalid

end Sys2Proof.Machine
end

