-- ==== Sys2Proof/Machine/Ops.lean ====
section
/-! DEFINITION. The operations every meaning shares: the buffer stores (20_memory.md R68, R69), how a command ends (the
abort of 60_exceptions.md R240, the success of R241), and reset (70_reset_and_hazards.md R260). The core has no return
from an error: after an abort it is idle (R242). -/

namespace Sys2Proof.Machine

/-- The byte written last at an index, or none when nothing was written there since reset. -/
def Memory.read : Memory → Nat → Option Byte
  | [], _ => none
  | (a, v) :: m, i => if i = a then some v else Memory.read m i

/-- Write one byte, keeping the cells in rising order with one cell an index. -/
def Memory.write : Memory → Nat → Byte → Memory
  | [], i, v => [(i, v)]
  | (a, w) :: m, i, v =>
    if i < a then (i, v) :: (a, w) :: m
    else if i = a then (i, v) :: m
    else (a, w) :: Memory.write m i v

/-- `MemWrite(S:i, n, bs)` of 00_scope.md R13: the bytes at `i`, `i + 1`, and so on. -/
def Memory.writeBytes : Memory → Nat → List Byte → Memory
  | m, _, [] => m
  | m, i, v :: bs => Memory.writeBytes (Memory.write m i v) (i + 1) bs

/-- The canonical form: indices strictly rising. -/
def Memory.wf : Memory → Bool
  | [] => true
  | [_] => true
  | (a, _) :: (b, w) :: m => a < b && Memory.wf ((b, w) :: m)

/-- `BUF_SIZE = BUF_MAX + 16`, the size of each buffer (00_scope.md R8). -/
def bufSize (s : State) : Nat :=
  s.cfg.bufMax + 16

/-- The byte `IBUF[i]` holds: what the host wrote last, or else the free value fixed at reset (10_state.md R44, log 3). -/
def ibufByte (s : State) (i : Nat) : Byte :=
  (s.ibuf.read i).getD (Config.ibufAtReset s.resets i)

/-- The byte the store holds at `OBUF[i]`, gated or not (R33, log 4). -/
def obufByte (s : State) (i : Nat) : Byte :=
  (s.obuf.read i).getD (Config.obufAtReset s.resets i)

/-- Sixteen 0x00 bytes, `rep(0x00, 16)`. -/
def zeroBlock : Block :=
  Vector.replicate 16 0

/-- A command that reaches its end (R241): `ERR <- 0x00`, `ERRINFO <- 0`. -/
def succeed (s : State) : State :=
  { s with err := 0, errInfo := 0 }

/-- `raise E(info)`: the abort of R240, on the state the command started from or has reached. The registers it clears
depend on the command. -/
def raise (scope : AbortScope) (f : Failure) (s : State) : State :=
  let s := { s with err := f.kind.code, errInfo := f.info }
  match scope with
  | .errorOnly => s
  | .output => { s with olen := 0 }
  | .chaining => { s with olen := 0, phase := .init, blk := 0, st := zeroBlock, chain := zeroBlock }

/-- The reset input (R260): every state element to its value of R44. The parameter is the implementation's and stays; the
entropy source and the host stand outside the core, so the draws answered, the transactions to come and the answers given
stay; the unspecified contents of the buffers are new ones (log 3). -/
def hardwareReset (s : State) : State :=
  { State.reset with
    cfg := s.cfg, draws := s.draws, resets := s.resets + 1, inputs := s.inputs, responses := s.responses }

end Sys2Proof.Machine
end

