-- ==== Sys2Proof/Machine/Operands.lean ====
section
/-! DEFINITION. How a command gets its operands: the State as a matrix (10_state.md R25), blocks and words of a byte
sequence (20_memory.md R60, R71), the input and output sequences of the buffers (R32, R33), the key (R24), byte-wise
exclusive OR (00_scope.md R10). The two operand fields of a word are bytes and come with the instruction
(30_encoding.md R92). -/

namespace Sys2Proof.Machine

/-- `state[c][r]` = `ST[4c + r]`: the byte at column `c`, row `r` (R25). -/
def cell (s : Block) (c r : Fin 4) : Byte :=
  s[4 * c.val + r.val]

/-- The State with byte `f c r` at column `c`, row `r` (R25): byte `i` is column `i div 4`, row `i mod 4`. -/
def ofCells (f : Fin 4 → Fin 4 → Byte) : Block :=
  Vector.ofFn fun i => f ⟨i.val / 4, by omega⟩ ⟨i.val % 4, by omega⟩

/-- `^` on two byte sequences of equal length, element by element (R10). -/
def xorBytes {n : Nat} (a b : Vector Byte n) : Vector Byte n :=
  Vector.ofFn fun i => a[i.val] ^^^ b[i.val]

/-- Block `k` of a byte sequence: its bytes `16k .. 16k+15` (R60). Used only where the sequence has them. -/
def blockAt (buf : List Byte) (k : Nat) : Block :=
  Vector.ofFn fun j => buf.getD (16 * k + j.val) 0

/-- Word `k` of a byte sequence: its bytes `4k .. 4k+3` (R60). Used only where the sequence has them. -/
def wordOfBytes (buf : List Byte) (k : Nat) : Word :=
  Vector.ofFn fun j => buf.getD (4 * k + j.val) 0

/-- `MemRead(IBUF:0, ILEN)`: the input byte sequence `IBUF[0..ILEN)` (R32, R71). -/
def inputBytes (s : State) : List Byte :=
  (List.range s.ilen.toNat).map (ibufByte s)

/-- `OBUF[0..OLEN)`: the output byte sequence (R33). -/
def outputBytes (s : State) : List Byte :=
  (List.range s.olen.toNat).map (obufByte s)

/-- `MemRead(KEY:0, KEYLEN)`: the key bytes KEXP reads once KEYLEN is known to be 16, 24 or 32 (R24). -/
def keyBytes (s : State) : List Byte :=
  s.key.toList.take s.keyLen.toNat

/-- `MemWrite(OBUF:0, len(out), out)` and `OLEN <- len(out)` (R71). -/
def setOutput (out : List Byte) (s : State) : State :=
  { s with obuf := s.obuf.writeBytes 0 out, olen := BitVec.ofNat 32 out.length }

end Sys2Proof.Machine
end

