-- ==== Sys2Proof/Machine/GaloisField.lean ====
section
/-! DEFINITION. The GF(2^8) multiplier (40_gf_and_tables.md R110, R111) and the command GFMUL (R119). -/

namespace Sys2Proof.Machine

/-- `(a << 1)[7:0]`, XORed with 0x1B when bit 7 of `a` was set (R111): `a` times x. -/
def double (a : Byte) : Byte :=
  if a.getLsbD 7 then (a <<< 1) ^^^ 0x1B else a <<< 1

/-- `n` iterations of R111's loop from the accumulator `acc`. -/
def multiplyLoop : Nat → (acc a b : Byte) → Byte
  | 0, acc, _, _ => acc
  | n + 1, acc, a, b => multiplyLoop n (if b.getLsbD 0 then acc ^^^ a else acc) (double a) (b >>> 1)

/-- `multiply(a, b)` (R111): eight iterations from accumulator 0. -/
def multiply (a b : Byte) : Byte :=
  multiplyLoop 8 0 a b

/-- GFMUL a, b (R119): `RES <- multiply(A, B)`. -/
def execGfmul (a b : Byte) (s : State) : Result :=
  .next (succeed { s with res := multiply a b })

end Sys2Proof.Machine
end

