-- ==== Sys2Proof/Machine/KeySchedule.lean ====
section
/-! DEFINITION. The key scheduler (42_key_schedule.md R130 to R136) and the command KEXP (R138). -/

namespace Sys2Proof.Machine

/-- `RotWord` (R130): the 4 bytes rotated left by one. -/
def rotWord (t : Word) : Word :=
  #v[t[1], t[2], t[3], t[0]]

/-- `SubWord` (R131): SBOX on each byte. -/
def subWord (t : Word) : Word :=
  #v[sbox t[0], sbox t[1], sbox t[2], sbox t[3]]

/-- `Rcon[j]` (R132): `[rc_j, 0, 0, 0]`. -/
def rcon (j : Nat) : Word :=
  #v[rc j, 0, 0, 0]

/-- The value XORed into word `i` (R133), from the word before it, for a key of `n` words. -/
def scheduleTemp (n i : Nat) (prev : Word) : Word :=
  if i % n = 0 then xorBytes (subWord (rotWord prev)) (rcon (i / n))
  else if n = 8 ∧ i % n = 4 then subWord prev
  else prev

/-- Word `i` of a sequence of words. Used only where the sequence has it. -/
def wordAt (ws : List Word) (i : Nat) : Word :=
  ws.getD i (Vector.replicate 4 0)

/-- One pass of R133's second loop: word `i`, where `i` is how many words there are. -/
def expandStep (n : Nat) (ws : List Word) : List Word :=
  ws ++ [xorBytes (wordAt ws (ws.length - n)) (scheduleTemp n ws.length (wordAt ws (ws.length - 1)))]

/-- `k` passes of R133's second loop, in ascending order of the words. -/
def expandLoop (n : Nat) : Nat → List Word → List Word
  | 0, ws => ws
  | k + 1, ws => expandLoop n k (expandStep n ws)

/-- R133's first loop: the key split into `n` words. -/
def keyWords (key : List Byte) (n : Nat) : List Word :=
  (List.range n).map (wordOfBytes key)

/-- `rounds` for a key of `n` words (00_scope.md R7). -/
def roundsOf (n : Nat) : Nat :=
  n + 6

/-- `expand(key)` (R133): the `4 × (rounds + 1)` words of the schedule of a key of 16, 24 or 32 bytes. -/
def expand (key : List Byte) : List Word :=
  let n := key.length / 4
  expandLoop n (4 * (roundsOf n + 1) - n) (keyWords key n)

/-- The store with the words written from `KS[0]` on; the words above are left as they were (R138). -/
def writeSchedule (ws : List Word) (ks : Vector Word 60) : Vector Word 60 :=
  Vector.ofFn fun w => if w.val < ws.length then wordAt ws w.val else ks[w.val]

/-- A key schedule as the round pipeline takes it: the words and the number of rounds. -/
structure Schedule where
  words : Vector Word 60
  rounds : Nat
deriving DecidableEq, Repr

/-- The current schedule `(KS, NR)`. -/
def schedule (s : State) : Schedule :=
  ⟨s.ks, s.nr.toNat⟩

/-- Word `w` of the store. Every index a command uses is below 60 (NR is at most 14, R31); log 12 for others. -/
def scheduleWord (ks : Vector Word 60) (w : Nat) : Word :=
  wordAt ks.toList w

/-- `round_key(r)` as 16 bytes (R136): column `c` is word `4r + c`. -/
def roundKey (k : Schedule) (r : Nat) : Block :=
  ofCells fun c j => (scheduleWord k.words (4 * r + c.val))[j.val]

/-- KEXP (R138): the length check first, then the schedule of `KEY[0..KEYLEN)`. -/
def execKexp (s : State) : Result :=
  if s.keyLen ≠ 16 ∧ s.keyLen ≠ 24 ∧ s.keyLen ≠ 32 then
    .next (raise .errorOnly ⟨.invalidKeySize, s.keyLen⟩ s)
  else
    let n := s.keyLen.toNat / 4
    .next (succeed { s with
      ks := writeSchedule (expand (keyBytes s)) s.ks
      nk := BitVec.ofNat 8 n
      nr := BitVec.ofNat 8 (roundsOf n)
      kvalid := true })

end Sys2Proof.Machine
end

