-- ==== Sys2Proof/Machine/RoundPipeline.lean ====
section
/-! DEFINITION. The seven round primitives (43_round_primitives.md), each a function on a State and the command that
applies it to ST. -/

namespace Sys2Proof.Machine

/-- `SubBytes` (R150). -/
def subBytes (s : Block) : Block :=
  Vector.ofFn fun i => sbox s[i.val]

/-- `ShiftRows` (R151): row `r` shifted left by `r`; column `(c + r) mod 4` moves to column `c`. -/
def shiftRows (s : Block) : Block :=
  ofCells fun c r => cell s (c + r) r

/-- One output byte of the matrix product of R153 and R157: a matrix row times column `c` of the State. -/
def rowTimesColumn (row : Vector Byte 4) (s : Block) (c : Fin 4) : Byte :=
  multiply row[0] (cell s c 0) ^^^ multiply row[1] (cell s c 1) ^^^ multiply row[2] (cell s c 2) ^^^
    multiply row[3] (cell s c 3)

/-- `MixColumns` (R153). -/
def mixColumns (s : Block) : Block :=
  ofCells fun c r => rowTimesColumn (mixRow r) s c

/-- `AddRoundKey` (R154). -/
def addRoundKey (s k : Block) : Block :=
  xorBytes s k

/-- `InvSubBytes` (R155). -/
def invSubBytes (s : Block) : Block :=
  Vector.ofFn fun i => invSbox s[i.val]

/-- `InvShiftRows` (R156): column `(c - r) mod 4` moves to column `c`. -/
def invShiftRows (s : Block) : Block :=
  ofCells fun c r => cell s (c - r) r

/-- `InvMixColumns` (R157). -/
def invMixColumns (s : Block) : Block :=
  ofCells fun c r => rowTimesColumn (invMixRow r) s c

/-- A primitive command that cannot fail: `ST <- f(ST)`. -/
def transformSt (f : Block → Block) (s : State) : Result :=
  .next (succeed { s with st := f s.st })

/-- SUBB (R150). -/
def execSubb (s : State) : Result := transformSt subBytes s

/-- SHROW (R151). -/
def execShrow (s : State) : Result := transformSt shiftRows s

/-- MIXC (R153). -/
def execMixc (s : State) : Result := transformSt mixColumns s

/-- ADDRK r (R154): the schedule check, then the index check, then the XOR. -/
def execAddrk (r : Byte) (s : State) : Result :=
  if s.kvalid = false then .next (raise .errorOnly ⟨.noKeySchedule, 0⟩ s)
  else if s.nr < r then .next (raise .errorOnly ⟨.badRoundIndex, r.zeroExtend 32⟩ s)
  else .next (succeed { s with st := addRoundKey s.st (roundKey (schedule s) r.toNat) })

/-- ISUBB (R155). -/
def execIsubb (s : State) : Result := transformSt invSubBytes s

/-- ISHROW (R156). -/
def execIshrow (s : State) : Result := transformSt invShiftRows s

/-- IMIXC (R157). -/
def execImixc (s : State) : Result := transformSt invMixColumns s

end Sys2Proof.Machine
end

