-- ==== Sys2Proof/Machine/BlockCipher.lean ====
section
/-! DEFINITION. Block encrypt and decrypt (44_block_cipher.md R170, R172) and the commands ENCB (R171) and DECB (R173). -/

namespace Sys2Proof.Machine

/-- A middle round of R170. -/
def encryptRound (k : Schedule) (r : Nat) (s : Block) : Block :=
  addRoundKey (mixColumns (shiftRows (subBytes s))) (roundKey k r)

/-- Rounds `1 .. n` of R170's step 2, ascending. -/
def encryptRounds (k : Schedule) : Nat → Block → Block
  | 0, s => s
  | n + 1, s => encryptRound k (n + 1) (encryptRounds k n s)

/-- `Encrypt(s, schedule)` (R170). -/
def encrypt (k : Schedule) (s : Block) : Block :=
  let s := addRoundKey s (roundKey k 0)
  let s := encryptRounds k (k.rounds - 1) s
  addRoundKey (shiftRows (subBytes s)) (roundKey k k.rounds)

/-- A middle round of R172: the round key is added before InvMixColumns. -/
def decryptRound (k : Schedule) (r : Nat) (s : Block) : Block :=
  invMixColumns (addRoundKey (invSubBytes (invShiftRows s)) (roundKey k r))

/-- Rounds `n` down to `1` of R172's step 2. -/
def decryptRounds (k : Schedule) : Nat → Block → Block
  | 0, s => s
  | n + 1, s => decryptRounds k n (decryptRound k (n + 1) s)

/-- `Decrypt(s, schedule)` (R172). -/
def decrypt (k : Schedule) (s : Block) : Block :=
  let s := addRoundKey s (roundKey k k.rounds)
  let s := decryptRounds k (k.rounds - 1) s
  addRoundKey (invSubBytes (invShiftRows s)) (roundKey k 0)

/-- A command that needs round keys starts with the check of 60_exceptions.md R231. -/
def withSchedule (scope : AbortScope) (s : State) (body : Result) : Result :=
  if s.kvalid = false then .next (raise scope ⟨.noKeySchedule, 0⟩ s) else body

/-- ENCB (R171). -/
def execEncb (s : State) : Result :=
  withSchedule .errorOnly s (.next (succeed { s with st := encrypt (schedule s) s.st }))

/-- DECB (R173). -/
def execDecb (s : State) : Result :=
  withSchedule .errorOnly s (.next (succeed { s with st := decrypt (schedule s) s.st }))

end Sys2Proof.Machine
end

