-- ==== Sys2Proof/Machine/Padding.lean ====
section
/-! DEFINITION. The PKCS#7 padder and stripper (46_padding.md R201, R203) and the commands PAD (R202) and STRIP (R204). -/

namespace Sys2Proof.Machine

/-- `padLen` of R201: 1 to 16. -/
def padLength (len : Nat) : Nat :=
  16 - len % 16

/-- `pad_input(buf)` (R201). -/
def padInput (buf : List Byte) : List Byte :=
  buf ++ List.replicate (padLength buf.length) (BitVec.ofNat 8 (padLength buf.length))

/-- `strip_output(buf)` (R203), its checks in its order, each failure with the value of 60_exceptions.md R221. -/
def stripOutput (buf : List Byte) : Except Failure (List Byte) :=
  if buf.length % 16 ≠ 0 then .error ⟨.invalidSize, BitVec.ofNat 32 buf.length⟩
  else if buf.length = 0 then .error ⟨.emptyBuffer, 0⟩
  else
    let padLen := buf.getD (buf.length - 1) 0
    if padLen = 0 ∨ 16 < padLen.toNat then .error ⟨.invalidPaddingSize, padLen.zeroExtend 32⟩
    else if (buf.drop (buf.length - padLen.toNat)).any (· != padLen) then
      .error ⟨.invalidPaddingBytes, padLen.zeroExtend 32⟩
    else .ok (buf.take (buf.length - padLen.toNat))

/-- PAD (R202). -/
def execPad (s : State) : Result :=
  let s := { s with olen := 0 }
  if s.cfg.bufMax < s.ilen.toNat then .next (raise .output ⟨.lengthOverflow, s.ilen⟩ s)
  else .next (succeed (setOutput (padInput (inputBytes s)) s))

/-- STRIP (R204). -/
def execStrip (s : State) : Result :=
  let s := { s with olen := 0 }
  if bufSize s < s.ilen.toNat then .next (raise .output ⟨.lengthOverflow, s.ilen⟩ s)
  else
    match stripOutput (inputBytes s) with
    | .error f => .next (raise .output f s)
    | .ok out => .next (succeed (setOutput out s))

end Sys2Proof.Machine
end

