-- ==== Sys2Proof/Machine/Cbc.lean ====
section
/-! DEFINITION. CBC chaining: the procedures of 45_cbc.md R180 and R183 as functions of byte sequences, and the commands
CBCENC (R182) and CBCDEC (R184) as their pseudocode runs them on the state, block by block (R185). -/

namespace Sys2Proof.Machine

/-- The chain value and the output of R180's step 3 after blocks `0 .. n-1`. -/
def cbcEncryptBlocks (k : Schedule) (iv : Block) (buf : List Byte) : Nat → Block × List Byte
  | 0 => (iv, [])
  | n + 1 =>
    let (chain, out) := cbcEncryptBlocks k iv buf n
    let c := encrypt k (xorBytes (blockAt buf n) chain)
    (c, out ++ c.toList)

/-- CBC `Encrypt(plaintext, schedule, iv)` (R180). -/
def cbcEncrypt (k : Schedule) (iv : Block) (plaintext : List Byte) : List Byte :=
  let buf := padInput plaintext
  (cbcEncryptBlocks k iv buf (buf.length / 16)).2

/-- The chain value and the plaintext of R183's step 3 after blocks `0 .. n-1`. -/
def cbcDecryptBlocks (k : Schedule) (iv : Block) (ciphertext : List Byte) : Nat → Block × List Byte
  | 0 => (iv, [])
  | n + 1 =>
    let (chain, plain) := cbcDecryptBlocks k iv ciphertext n
    let c := blockAt ciphertext n
    (c, plain ++ (xorBytes (decrypt k c) chain).toList)

/-- CBC `Decrypt(ciphertext, schedule, iv)` (R183): the length check, the blocks, then the stripper, whose failure is the
result. -/
def cbcDecrypt (k : Schedule) (iv : Block) (ciphertext : List Byte) : Except Failure (List Byte) :=
  if ciphertext.length % 16 ≠ 0 then .error ⟨.invalidCipherText, BitVec.ofNat 32 ciphertext.length⟩
  else stripOutput (cbcDecryptBlocks k iv ciphertext (ciphertext.length / 16)).2

/-- `PHASE <- Init ; BLK <- 0 ; OLEN <- 0`: a CBC command has passed its hardware checks (R185). -/
def cbcInit (s : State) : State :=
  { s with phase := .init, blk := 0, olen := 0 }

/-- `CHAIN <- IV ; PHASE <- Chaining`: the input is accepted (R185). -/
def cbcStart (s : State) : State :=
  { s with chain := s.iv, phase := .chaining }

/-- `ST <- rep(0x00, 16) ; PHASE <- Done` and success: the last lines of R182 and R184. -/
def cbcFinish (s : State) : State :=
  succeed { s with st := zeroBlock, phase := .done }

/-- Pass `i` of CBCENC's loop (R182). -/
def cbcencBlock (buf : List Byte) (i : Nat) (s : State) : State :=
  let s := { s with st := xorBytes (blockAt buf i) s.chain }
  let s := { s with st := encrypt (schedule s) s.st }
  let s := { s with obuf := s.obuf.writeBytes (16 * i) s.st.toList }
  { s with chain := s.st, blk := BitVec.ofNat 32 (i + 1) }

/-- Passes `0 .. n-1` of CBCENC's loop. -/
def cbcencLoop (buf : List Byte) : Nat → State → State
  | 0, s => s
  | n + 1, s => cbcencBlock buf n (cbcencLoop buf n s)

/-- CBCENC (R182). -/
def execCbcenc (s : State) : Result :=
  withSchedule .chaining s
    (if s.cfg.bufMax < s.ilen.toNat then .next (raise .chaining ⟨.lengthOverflow, s.ilen⟩ s)
    else
      let s := cbcInit s
      let buf := padInput (inputBytes s)
      let n := buf.length / 16
      let s := cbcencLoop buf n (cbcStart s)
      .next (cbcFinish { s with olen := BitVec.ofNat 32 (16 * n) }))

/-- Pass `i` of CBCDEC's loop (R184), with the plaintext so far. -/
def cbcdecBlock (buf : List Byte) (i : Nat) (p : State × List Byte) : State × List Byte :=
  let c := blockAt buf i
  let s := { p.1 with st := c }
  let s := { s with st := decrypt (schedule s) s.st }
  ({ s with chain := c, blk := BitVec.ofNat 32 (i + 1) }, p.2 ++ (xorBytes s.st s.chain).toList)

/-- Passes `0 .. n-1` of CBCDEC's loop. -/
def cbcdecLoop (buf : List Byte) : Nat → State → State × List Byte
  | 0, s => (s, [])
  | n + 1, s => cbcdecBlock buf n (cbcdecLoop buf n s)

/-- CBCDEC (R184). -/
def execCbcdec (s : State) : Result :=
  withSchedule .chaining s
    (if bufSize s < s.ilen.toNat then .next (raise .chaining ⟨.lengthOverflow, s.ilen⟩ s)
    else
      let s := cbcInit s
      if s.ilen.toNat % 16 ≠ 0 then .next (raise .chaining ⟨.invalidCipherText, s.ilen⟩ s)
      else
        let p := cbcdecLoop (inputBytes s) (s.ilen.toNat / 16) (cbcStart s)
        match stripOutput p.2 with
        | .error f => .next (raise .chaining f p.1)
        | .ok out => .next (cbcFinish (setOutput out p.1)))

end Sys2Proof.Machine
end

