-- ==== Sys2Proof/Machine/IvGeneration.lean ====
section
/-! DEFINITION. The entropy port (47_iv.md R210) and the command IVGEN (R211). -/

namespace Sys2Proof.Machine

/-- `draw(16)`, the entropy source's answer number `n`: sixteen free bytes (00_scope.md R15, log 2). -/
def drawBlock (n : Nat) : Block :=
  Vector.ofFn fun i => Config.entropyByte n i.val

/-- IVGEN (R211): `IV <- draw(16)`. The draw is used up, so the next one is another free value. -/
def execIvgen (s : State) : Result :=
  .next (succeed { s with iv := drawBlock s.draws, draws := s.draws + 1 })

end Sys2Proof.Machine
end

