-- ==== Sys2Proof/Machine/Ports.lean ====
section
/-! DEFINITION. The host's register port (10_state.md R42, R43) and data port (20_memory.md R61, R64 to R66). A transaction
that gets an error response changes nothing but the record of answers (log 7). -/

namespace Sys2Proof.Machine

/-- Record what a transaction answered. -/
def respond (r : Response) (s : State) : State :=
  { s with responses := s.responses ++ [r] }

/-- The register number `n` zero-extended to 32 bits, or none where R42 has no such register. -/
def regValue (s : State) : Nat → Option Reg32
  | 0 => some ((statusByte s).zeroExtend 32)
  | 1 => some (s.err.zeroExtend 32)
  | 2 => some s.errInfo
  | 3 => some s.keyLen
  | 4 => some s.ilen
  | 5 => some s.olen
  | 6 => some (s.res.zeroExtend 32)
  | 7 => some (s.nk.zeroExtend 32)
  | 8 => some (s.nr.zeroExtend 32)
  | 9 => some s.blk
  | _ => none

/-- `RegRead(n)` (R42, R43): an absent register reads as 0 with an error response. -/
def portRegRead (n : Nat) (s : State) : State :=
  match regValue s n with
  | some v => respond (.regValue true v) s
  | none => respond (.regValue false 0) s

/-- `RegWrite(n, v)` (R43): registers 3 and 4 take any 32-bit value; every other number is an error response. -/
def portRegWrite (n : Nat) (v : Reg32) (s : State) : State :=
  if n = 3 then respond (.written true) { s with keyLen := v }
  else if n = 4 then respond (.written true) { s with ilen := v }
  else respond (.written false) s

/-- The space with this number (R61). -/
def spaceOf : Nat → Option Space
  | 0 => some .key
  | 1 => some .iv
  | 2 => some .st
  | 3 => some .ks
  | 4 => some .chain
  | 5 => some .ibuf
  | 6 => some .obuf
  | _ => none

/-- The size of a space in bytes (R61), for an implementation's parameter. -/
def spaceSize (cfg : Config) : Space → Nat
  | .key => 32
  | .iv => 16
  | .st => 16
  | .ks => 240
  | .chain => 16
  | .ibuf => cfg.bufMax + 16
  | .obuf => cfg.bufMax + 16

/-- The "host write" column of R61. -/
def hostWritable : Space → Bool
  | .key | .iv | .st | .ibuf => true
  | .ks | .chain | .obuf => false

/-- Byte `i` of a fixed array; read only below its size. -/
def byteAt {n : Nat} (v : Vector Byte n) (i : Nat) : Byte :=
  v.toList.getD i 0

/-- The byte a host read of an existing location returns, with the gating of KS (10_state.md R30) and OBUF (R33). -/
def spaceByte (s : State) : Space → Nat → Byte
  | .key, i => byteAt s.key i
  | .iv, i => byteAt s.iv i
  | .st, i => byteAt s.st i
  | .ks, i =>
    if s.kvalid = false ∨ 16 * (s.nr.toNat + 1) ≤ i then 0 else byteAt (scheduleWord s.ks (i / 4)) (i % 4)
  | .chain, i => byteAt s.chain i
  | .ibuf, i => ibufByte s i
  | .obuf, i => if s.olen.toNat ≤ i then 0 else obufByte s i

/-- `HostRead(space, index)` (R64). -/
def portDataRead (space index : Nat) (s : State) : State :=
  match spaceOf space with
  | none => respond (.byteValue false 0) s
  | some sp =>
    if index < spaceSize s.cfg sp then respond (.byteValue true (spaceByte s sp index)) s
    else respond (.byteValue false 0) s

/-- One byte of a host-writable space (R65); the spaces a host cannot write are left alone. -/
def setSpaceByte (sp : Space) (i : Nat) (v : Byte) (s : State) : State :=
  match sp with
  | .key => { s with key := s.key.setIfInBounds i v }
  | .iv => { s with iv := s.iv.setIfInBounds i v }
  | .st => { s with st := s.st.setIfInBounds i v }
  | .ibuf => { s with ibuf := s.ibuf.write i v }
  | .ks | .chain | .obuf => s

/-- `HostWrite(space, index, byte)` (R65). -/
def portDataWrite (space index : Nat) (v : Byte) (s : State) : State :=
  match spaceOf space with
  | none => respond (.written false) s
  | some sp =>
    if index < spaceSize s.cfg sp ∧ hostWritable sp = true then
      respond (.written true) (setSpaceByte sp index v s)
    else respond (.written false) s

/-- Whether an event gets no error response, so that a host program holding it is well formed (R43, R66). A command word
always is: an illegal one is reported in ERR, not on the port. -/
def HostEvent.accepted (cfg : Config) : HostEvent → Bool
  | .regRead n => decide (n < 10)
  | .regWrite n _ => n == 3 || n == 4
  | .dataRead space index =>
    match spaceOf space with
    | none => false
    | some sp => decide (index < spaceSize cfg sp)
  | .dataWrite space index _ =>
    match spaceOf space with
    | none => false
    | some sp => decide (index < spaceSize cfg sp) && hostWritable sp
  | .issue _ => true
  | .reset => true

end Sys2Proof.Machine
end

