-- ==== Sys2Proof/Machine/Serve.lean ====
section
/-! DEFINITION. Serving one event: a transaction on a port or the reset input (10_state.md R20, R21). There is no fetch
(20_memory.md R74): a command word is consumed by `Issue`. -/

namespace Sys2Proof.Machine

/-- The event the machine serves next: the oldest one (20_memory.md R72). -/
def nextEvent (s : State) : Option HostEvent :=
  s.inputs.head?

/-- The state with that event taken from the list. -/
def takeEvent (s : State) : State :=
  { s with inputs := s.inputs.tail }

/-- An illegal word (60_exceptions.md R230): `ERR <- 0x80`, `ERRINFO <- cw`, and no other state changes. -/
def illegalCommand (cw : Reg32) (s : State) : State :=
  raise .errorOnly ⟨.illegalCommand, cw⟩ s

/-- `Issue(cw)` (30_encoding.md R94): decode first, then the command. Issue returns when the command has ended, and every
command ends (70_reset_and_hazards.md R274), so its return is recorded with it (log 13). -/
def issueCommand (cw : Reg32) (s : State) : Result :=
  match decode cw with
  | .ok i => exec i (respond .commandEnded s)
  | .error _ => .next (illegalCommand cw (respond .commandEnded s))

/-- Serve one event, already taken from the list. -/
def serve : HostEvent → State → Result
  | .regRead n, s => .next (portRegRead n s)
  | .regWrite n v, s => .next (portRegWrite n v s)
  | .dataRead space index, s => .next (portDataRead space index s)
  | .dataWrite space index v, s => .next (portDataWrite space index v s)
  | .issue cw, s => issueCommand cw s
  | .reset, s => .next (hardwareReset s)

/-- Put a command word where the machine takes its next event from: the host issues it next (log 1). -/
def pushCommand (cw : Reg32) (s : State) : State :=
  { s with inputs := .issue cw :: s.inputs }

end Sys2Proof.Machine
end

