-- ==== Sys2Proof/Machine/Step.lean ====
section
/-! DEFINITION. The step: serve the oldest event, or wait for the host when there is none (70_reset_and_hazards.md R260,
R276: "The core never stops by itself"). -/

namespace Sys2Proof.Machine

/-- One step of the machine: one host transaction or reset, a command being one atomic step (10_state.md R21). -/
def step (s : State) : Host.Outcome State Fault Refusal :=
  match nextEvent s with
  | none => .next s
  | some e => serve e (takeEvent s)

/-- The state whose very next step runs the command word of `nbits` bits `w`: the host issues it first (log 1). -/
def State.withFetchWord (s : State) (nbits w : Nat) : State :=
  pushCommand (commandWord nbits w) s

end Sys2Proof.Machine
end

