-- ==== Sys2Proof/Machine/HostProgram.lean ====
section
/-! DEFINITION. Host programs (30_encoding.md R97, R98, R104) as lists of events, and their runs
(70_reset_and_hazards.md R276). -/

namespace Sys2Proof.Machine

/-- `WR space[from + j], bs[j]` for each byte, in order. -/
def writeBytesFrom (space : Nat) : Nat → List Byte → List HostEvent
  | _, [] => []
  | i, v :: bs => .dataWrite space i v :: writeBytesFrom space (i + 1) bs

/-- `RD space[i]` for `i = start .. start + n - 1`. -/
def readBytesFrom (space start n : Nat) : List HostEvent :=
  (List.range n).map fun j => .dataRead space (start + j)

/-- `LDKEY b0 .. b(L-1)` (R98), for `L` at most 32: the key bytes, then `SET KEYLEN, L`. -/
def ldKey (key : List Byte) : List HostEvent :=
  writeBytesFrom 0 0 key ++ [.regWrite 3 (BitVec.ofNat 32 key.length)]

/-- `LDIV b0 .. b15` (R98). -/
def ldIv (iv : Block) : List HostEvent :=
  writeBytesFrom 1 0 iv.toList

/-- `LDST b0 .. b15` (R98). -/
def ldSt (st : Block) : List HostEvent :=
  writeBytesFrom 2 0 st.toList

/-- `LDIN b0 .. b(m-1)` (R98): the input bytes, then `SET ILEN, m`. -/
def ldIn (input : List Byte) : List HostEvent :=
  writeBytesFrom 5 0 input ++ [.regWrite 4 (BitVec.ofNat 32 input.length)]

/-- `RDST` (R98). -/
def rdSt : List HostEvent := readBytesFrom 2 0 16

/-- `RDIV` (R98). -/
def rdIv : List HostEvent := readBytesFrom 1 0 16

/-- `RDRK r` (R98). -/
def rdRk (r : Nat) : List HostEvent := readBytesFrom 3 (16 * r) 16

/-- A command statement of R97: `Issue` of the command's word. -/
def command (i : Instr) : HostEvent := .issue (encode i)

/-- A host program the spec gives a run: no event gets an error response (R276). -/
def programAccepted (cfg : Config) (p : List HostEvent) : Bool :=
  p.all (HostEvent.accepted cfg)

/-- `n` steps, stopping where a step stops. -/
def runSteps : Nat → State → Result
  | 0, s => .next s
  | n + 1, s =>
    match step s with
    | .next t => runSteps n t
    | .fault r => .fault r
    | .refused r => .refused r

/-- The host performs these transactions and no others, each one step; the answers join those already given. -/
def perform (p : List HostEvent) (s : State) : Result :=
  runSteps p.length { s with inputs := p }

/-- A run of a host program from a start state (R276): its answers are the run's observable result. -/
def runProgram (p : List HostEvent) (s : State) : Result :=
  perform p { s with responses := [] }

/-- Go on from the state an outcome gives: what the host does next may depend on what it has read. -/
def andThen : Result → (State → Result) → Result
  | .next t, f => f t
  | .fault r, _ => .fault r
  | .refused r, _ => .refused r

/-- The values the `GET` statements returned, oldest first. -/
def getValues (answers : List Response) : List Reg32 :=
  answers.filterMap fun
    | .regValue _ v => some v
    | .byteValue _ _ | .written _ | .commandEnded => none

/-- The bytes the `RD` statements returned, oldest first. -/
def readValues (answers : List Response) : List Byte :=
  answers.filterMap fun
    | .byteValue _ v => some v
    | .regValue _ _ | .written _ | .commandEnded => none

/-- The value the latest `GET` returned; used only after one. -/
def lastGet (s : State) : Reg32 :=
  (getValues s.responses).getLastD 0

/-- `RDOUT` (R98): `GET OLEN`, then `RD OBUF[i]` for `i = 0 .. OLEN-1`, for the OLEN read. -/
def rdOut (s : State) : Result :=
  andThen (perform [.regRead 5] s) fun t => perform (readBytesFrom 6 0 (lastGet t).toNat) t

/-- How the host hands a key over (R104): `LDKEY key`, or `SET KEYLEN, len` alone for a key longer than 32 bytes. The length
is a 32-bit value (log 17). -/
def loadKey (key : List Byte) : List HostEvent :=
  if key.length ≤ 32 then ldKey key else [.regWrite 3 (BitVec.ofNat 32 key.length)]

/-- `new_key_schedule(key)` (R104): the key, `KEXP ; GET ERR`, and `GET ERRINFO` on failure. -/
def newKeySchedule (key : List Byte) (s : State) : Result :=
  andThen (perform (loadKey key ++ [command .kexp, .regRead 1]) s) fun t =>
    if lastGet t = 0 then .next t else perform [.regRead 2] t

/-- What `new_key_schedule` returns: the content of KS and NR, and NK, or the error's code and the length it carries; `t` is
the state the operation ends in, the answers are those it was given. -/
def keyScheduleReturned (answers : List Response) (t : State) : Except (Reg32 × Reg32) (Schedule × Byte) :=
  match getValues answers with
  | code :: info :: _ => .error (code, info)
  | _ => .ok (schedule t, t.nk)

/-- `encrypt(schedule, mode, padding_scheme, plaintext)` (R104), with the schedule in KS and the IV in IV:
`LDIN plaintext ; CBCENC ; GET ERR ; RDOUT`. -/
def encryptOperation (plaintext : List Byte) (s : State) : Result :=
  andThen (perform (ldIn plaintext ++ [command .cbcenc, .regRead 1]) s) rdOut

/-- `decrypt(schedule, mode, ciphertext)` (R104): `LDIN ciphertext ; CBCDEC ; GET ERR ; RDOUT`. -/
def decryptOperation (ciphertext : List Byte) (s : State) : Result :=
  andThen (perform (ldIn ciphertext ++ [command .cbcdec, .regRead 1]) s) rdOut

/-- What `encrypt` and `decrypt` return (60_exceptions.md R243): the bytes RDOUT read, or the error's code. -/
def bytesReturned (answers : List Response) : Except Reg32 (List Byte) :=
  match getValues answers with
  | code :: _ => if code = 0 then .ok (readValues answers) else .error code
  | [] => .ok (readValues answers)

/-- Commands one after another, as a host issues them (44_block_cipher.md R175). -/
def execAll : List Instr → State → Result
  | [], s => .next s
  | i :: is, s =>
    match exec i s with
    | .next t => execAll is t
    | .fault r => .fault r
    | .refused r => .refused r

/-- The middle rounds `1 .. n` of R175's sequence for ENCB. -/
def encbRounds : Nat → List Instr
  | 0 => []
  | n + 1 => encbRounds n ++ [.subb, .shrow, .mixc, .addrk (BitVec.ofNat 8 (n + 1))]

/-- The primitive commands R175 says ENCB equals, for `NR = nr`. -/
def encbPrimitives (nr : Nat) : List Instr :=
  [.addrk 0] ++ encbRounds (nr - 1) ++ [.subb, .shrow, .addrk (BitVec.ofNat 8 nr)]

/-- The middle rounds `n .. 1` of R175's sequence for DECB. -/
def decbRounds : Nat → List Instr
  | 0 => []
  | n + 1 => [.ishrow, .isubb, .addrk (BitVec.ofNat 8 (n + 1)), .imixc] ++ decbRounds n

/-- The primitive commands R175 says DECB equals, for `NR = nr`. -/
def decbPrimitives (nr : Nat) : List Instr :=
  [.addrk (BitVec.ofNat 8 nr)] ++ decbRounds (nr - 1) ++ [.ishrow, .isubb, .addrk 0]

end Sys2Proof.Machine
end

