-- ==== Sys2Proof/Safety.lean ====
section
/-! DEFINITION. What counts as a sound state of the core, and what a host can tell two states apart by: the terms the
claims use. -/

namespace Sys2Proof.Machine

/-- 10_state.md R31: the legal values of KVALID, NK and NR. -/
def ScheduleLegal (s : State) : Prop :=
  (s.kvalid = false ∧ s.nk = 0 ∧ s.nr = 0) ∨
    (s.kvalid = true ∧ ((s.nk = 4 ∧ s.nr = 10) ∨ (s.nk = 6 ∧ s.nr = 12) ∨ (s.nk = 8 ∧ s.nr = 14)))

/-- R29: a schedule in use is derived from its first NK words by the recurrence of 42_key_schedule.md R133. -/
def ScheduleDerived (s : State) : Prop :=
  s.kvalid = true → ∀ i, s.nk.toNat ≤ i → i < 4 * (s.nr.toNat + 1) →
    scheduleWord s.ks i =
      xorBytes (scheduleWord s.ks (i - s.nk.toNat)) (scheduleTemp s.nk.toNat i (scheduleWord s.ks (i - 1)))

/-- A buffer store in canonical form that lists only indices the buffer has (20_memory.md R61). -/
def BufferSound (m : Memory) (size : Nat) : Prop :=
  m.wf = true ∧ ∀ i, size ≤ i → m.read i = none

/-- R33: every output byte a host can read was written by a command. -/
def OutputWritten (s : State) : Prop :=
  s.olen.toNat ≤ bufSize s ∧ ∀ i, i < s.olen.toNat → (s.obuf.read i).isSome = true

/-- R37, R38: between commands PHASE is Init with no block counted, or Done with at least one. -/
def ChainingSettled (s : State) : Prop :=
  (s.phase = .init ∧ s.blk = 0) ∨ (s.phase = .done ∧ s.blk ≠ 0)

/-- The values ERR takes (60_exceptions.md R221, R227: 0x07 never occurs). -/
def errCodes : List Byte :=
  [0x00, 0x01, 0x02, 0x03, 0x04, 0x05, 0x06, 0x80, 0x81, 0x82, 0x83]

/-- R221, R241: ERR holds a code of the table, and success carries no value. -/
def ResultLegal (s : State) : Prop :=
  s.err ∈ errCodes ∧ (s.err = 0 → s.errInfo = 0)

/-- Byte `j` of the buffer STRIP and CBCDEC strip: the input of STRIP, the decrypted blocks of CBCDEC (60_exceptions.md
R226). -/
def strippedByte (i : Instr) (s : State) (j : Nat) : Byte :=
  if i = .cbcdec then
    (cbcDecryptBlocks (schedule s) s.iv (inputBytes s) (s.ilen.toNat / 16)).2.getD j 0
  else ibufByte s j

/-- The invariant of the core between two events. -/
structure CoreSound (s : State) : Prop where
  scheduleLegal : ScheduleLegal s
  scheduleDerived : ScheduleDerived s
  ibufSound : BufferSound s.ibuf (bufSize s)
  obufSound : BufferSound s.obuf (bufSize s)
  outputWritten : OutputWritten s
  chainingSettled : ChainingSettled s
  resultLegal : ResultLegal s

/-- 10_state.md R44: what the host finds after reset. The unspecified stores show as 0x00 where they are gated (KS, OBUF);
IBUF is left open. -/
structure ResetValues (s : State) : Prop where
  key : ∀ i, i < 32 → byteAt s.key i = 0
  keyLen : s.keyLen = 0
  nk : s.nk = 0
  nr : s.nr = 0
  kvalid : s.kvalid = false
  st : ∀ i, i < 16 → byteAt s.st i = 0
  iv : ∀ i, i < 16 → byteAt s.iv i = 0
  chain : ∀ i, i < 16 → byteAt s.chain i = 0
  ilen : s.ilen = 0
  olen : s.olen = 0
  res : s.res = 0
  phase : s.phase = .init
  blk : s.blk = 0
  err : s.err = 0
  errInfo : s.errInfo = 0
  status : statusByte s = 0
  ksGated : ∀ i, spaceByte s .ks i = 0
  obufGated : ∀ i, spaceByte s .obuf i = 0

/-- Two states that differ at most in what the spec calls unobservable (10_state.md R44, R30, R33): the KS words no
schedule covers and the OBUF bytes at and above OLEN. -/
structure SameToHost (s t : State) : Prop where
  others : t = { s with ks := t.ks, obuf := t.obuf }
  schedule : s.kvalid = true → ∀ w, w < 4 * (s.nr.toNat + 1) → scheduleWord t.ks w = scheduleWord s.ks w
  output : ∀ i, i < s.olen.toNat → obufByte t i = obufByte s i

end Sys2Proof.Machine
end

