-- ==== Sys2Proof/Certificates/Slice0/Obligations.lean ====
section
/-! DEFINITION. The statements for the provers, one `def Obligations.<Name> : Prop` each, listed in OBLIGATIONS.json. A
clause that rests on the model's own choice says so and names its log entry. -/

open Sys2Proof Sys2Proof.Machine

/-! ### Encoding and decoding (30_encoding.md) -/

/-- R90, R93, R94: decoding the word of any command, with every operand, gives that command. -/
def Obligations.EncodedCommandDecodes : Prop :=
  ∀ i : Instr, decode (encode i) = .ok i

/-- R93, R94: a word that decodes is the word of the command it decodes to; no two words are one command. -/
def Obligations.DecodedWordIsItsEncoding : Prop :=
  ∀ (cw : Reg32) (i : Instr), decode cw = .ok i → encode i = cw

/-- R93: the word is a mnemonic's command exactly when `cw & mask == match`. -/
def Obligations.DecodingFollowsMatchAndMask : Prop :=
  ∀ (m : Mnemonic) (cw : Reg32),
    (∃ i, decode cw = .ok i ∧ i.mnemonic = m) ↔ cw &&& m.maskBits = m.matchBits

/-- Words written out from R90 and R93, one of each format and two illegal ones (95_test_vectors.md V20). -/
def Obligations.SampleWordsDecode : Prop :=
  decode 0x00060F10 = .ok (.gfmul 15 6) ∧ decode 0x00000B33 = .ok (.addrk 11) ∧
    decode 0x00000050 = .ok .cbcenc ∧ decode 0x00000070 = .ok .ivgen ∧
    decode 0x01060F10 = .error .reservedNonzero ∧ decode 0x00010033 = .error .unusedOperandNonzero ∧
    decode 0x00000034 = .error .opcodeUnassigned

/-- R97: a statement is assembled exactly when its operand count and ranges are right, to a command it writes. -/
def Obligations.StatementsAssembleToTheirCommand : Prop :=
  (∀ i : Instr, i.wellFormed = true ∧ assemble i.text = some i) ∧
    ∀ t : CommandText,
      (t.operands.length ≠ t.mnemonic.operandCount ∨ ∃ v ∈ t.operands, 256 ≤ v) → assemble t = none

/-- R230: a word that is none of the sixteen commands, or has a nonzero reserved or unused field (the table's masks cover
those), writes `ERR <- 0x80`, `ERRINFO <- cw` and no other state of the core. (The model's own record of the transaction,
log 1, is left open here.) -/
def Obligations.IllegalWordReported : Prop :=
  ∀ (s : State) (cw : Reg32) (rest : List HostEvent),
    s.inputs = .issue cw :: rest → (∀ m : Mnemonic, cw &&& m.maskBits ≠ m.matchBits) →
      ∃ t, step s = .next t ∧
        t = { s with inputs := t.inputs, responses := t.responses, err := 0x80, errInfo := cw }

/-- A step runs the decoded command: when the next event issues a word that decodes to `i`, the step is `exec i` at the
state with the event taken and Issue's return recorded (log 1, log 13), and `withFetchWord` places such an event. -/
def Obligations.StepRunsDecodedCommand : Prop :=
  (∀ (s : State) (cw : Reg32) (rest : List HostEvent) (i : Instr),
    s.inputs = .issue cw :: rest → decode cw = .ok i →
      step s = exec i { s with inputs := rest, responses := s.responses ++ [.commandEnded] }) ∧
    ∀ (s : State) (w : Nat) (i : Instr),
      decodeTableWord 32 w = some i →
        step (s.withFetchWord 32 w) = exec i { s with responses := s.responses ++ [.commandEnded] }

/-! ### The ports (10_state.md R42, R43; 20_memory.md R64, R65) -/

/-- R42, R43: what every register read answers, what every register write does, and that every register reads as 0 after
reset. An absent number and a write to a read-only register change nothing. What a transaction returns is read off the list
of answers, the model's form (log 1, log 7). -/
def Obligations.RegisterPortFollowsMap : Prop :=
  (∀ (s : State) (n : Nat) (rest : List HostEvent), s.inputs = .regRead n :: rest →
    step s = .next { s with
      inputs := rest
      responses := s.responses ++ [match n with
        | 0 => .regValue true ((statusByte s).zeroExtend 32)
        | 1 => .regValue true (s.err.zeroExtend 32)
        | 2 => .regValue true s.errInfo
        | 3 => .regValue true s.keyLen
        | 4 => .regValue true s.ilen
        | 5 => .regValue true s.olen
        | 6 => .regValue true (s.res.zeroExtend 32)
        | 7 => .regValue true (s.nk.zeroExtend 32)
        | 8 => .regValue true (s.nr.zeroExtend 32)
        | 9 => .regValue true s.blk
        | _ => .regValue false 0] }) ∧
  (∀ (s : State) (n : Nat) (v : Reg32) (rest : List HostEvent), s.inputs = .regWrite n v :: rest →
    step s = .next { s with
      inputs := rest
      keyLen := if n = 3 then v else s.keyLen
      ilen := if n = 4 then v else s.ilen
      responses := s.responses ++ [.written (n == 3 || n == 4)] }) ∧
  ∀ n, n < 10 → regValue State.reset n = some 0

/-- R41, R37: the bits of STATUS. -/
def Obligations.StatusBits : Prop :=
  ∀ s : State,
    (statusByte s).getLsbD 0 = s.kvalid ∧
    ((statusByte s).getLsbD 1 = true ↔ s.err ≠ 0) ∧
    (statusByte s).extractLsb' 2 2 = (match s.phase with | .init => 0 | .chaining => 1 | .done => 2) ∧
    (statusByte s).extractLsb' 4 4 = 0

/-- R64: what every data read answers, with the gating of KS and OBUF; a read has no side effect. What it returns is read off
the list of answers, the model's form (log 1, log 7). -/
def Obligations.DataPortReads : Prop :=
  ∀ (s : State) (sp i : Nat) (rest : List HostEvent), s.inputs = .dataRead sp i :: rest →
    step s = .next { s with
      inputs := rest
      responses := s.responses ++ [
        match sp with
        | 0 => if i < 32 then .byteValue true (byteAt s.key i) else .byteValue false 0
        | 1 => if i < 16 then .byteValue true (byteAt s.iv i) else .byteValue false 0
        | 2 => if i < 16 then .byteValue true (byteAt s.st i) else .byteValue false 0
        | 3 =>
          if 240 ≤ i then .byteValue false 0
          else if s.kvalid = false ∨ 16 * (s.nr.toNat + 1) ≤ i then .byteValue true 0
          else .byteValue true (byteAt (scheduleWord s.ks (i / 4)) (i % 4))
        | 4 => if i < 16 then .byteValue true (byteAt s.chain i) else .byteValue false 0
        | 5 => if i < s.cfg.bufMax + 16 then .byteValue true (ibufByte s i) else .byteValue false 0
        | 6 =>
          if s.cfg.bufMax + 16 ≤ i then .byteValue false 0
          else if s.olen.toNat ≤ i then .byteValue true 0
          else .byteValue true (obufByte s i)
        | _ => .byteValue false 0] }

/-- R65: every data write: one byte of KEY, IV, ST or IBUF and nothing else, or an error response and no change. The
response is read off the list of answers, the model's form (log 1, log 7). -/
def Obligations.DataPortWrites : Prop :=
  ∀ (s : State) (sp i : Nat) (v : Byte) (rest : List HostEvent), s.inputs = .dataWrite sp i v :: rest →
    ∃ t, step s = .next t ∧
      t = { s with
        inputs := rest, key := t.key, iv := t.iv, st := t.st, ibuf := t.ibuf
        responses := s.responses ++ [.written (match sp with
          | 0 => decide (i < 32)
          | 1 | 2 => decide (i < 16)
          | 5 => decide (i < s.cfg.bufMax + 16)
          | _ => false)] } ∧
      (∀ j, j < 32 → byteAt t.key j = if sp = 0 ∧ j = i then v else byteAt s.key j) ∧
      (∀ j, j < 16 → byteAt t.iv j = if sp = 1 ∧ j = i then v else byteAt s.iv j) ∧
      (∀ j, j < 16 → byteAt t.st j = if sp = 2 ∧ j = i then v else byteAt s.st j) ∧
      (∀ j, ibufByte t j = if sp = 5 ∧ i < s.cfg.bufMax + 16 ∧ j = i then v else ibufByte s j)

/-- R72: a host read observes the latest preceding write to that byte; every other byte reads as before the write. -/
def Obligations.HostReadSeesLatestWrite : Prop :=
  ∀ (s : State) (sp i : Nat) (v : Byte) (sp' j : Nat),
    (HostEvent.dataWrite sp i v).accepted s.cfg = true → (HostEvent.dataRead sp' j).accepted s.cfg = true →
      ∃ t u w x,
        step { s with inputs := [.dataWrite sp i v, .dataRead sp' j] } = .next t ∧ step t = .next u ∧
        step { s with inputs := [.dataRead sp' j] } = .next w ∧
        w.responses = s.responses ++ [.byteValue true x] ∧
        u.responses = s.responses ++ [.written true, .byteValue true (if sp' = sp ∧ j = i then v else x)]

/-- R39, R65: a host transaction that is not a command changes no result, no schedule and no output: only what the host
may write. -/
def Obligations.HostTransactionsKeepResults : Prop :=
  ∀ (s t : State) (e : HostEvent) (rest : List HostEvent),
    s.inputs = e :: rest → e ≠ .reset → (∀ cw, e ≠ .issue cw) → step s = .next t →
      t = { s with
        key := t.key, keyLen := t.keyLen, st := t.st, iv := t.iv, ibuf := t.ibuf, ilen := t.ilen
        inputs := rest, responses := t.responses } ∧
      t.responses.length = s.responses.length + 1

/-! ### Reset and the run (70_reset_and_hazards.md) -/

/-- R44, R260: the values after reset, for the reset state and for the reset input at any state. -/
def Obligations.ResetGivesResetValues : Prop :=
  ResetValues State.reset ∧
    ∀ (s : State) (rest : List HostEvent), s.inputs = .reset :: rest →
      ∃ t, step s = .next t ∧ ResetValues t ∧ t.cfg = s.cfg

/-- R260, R276: with nothing to serve the core waits, and changes nothing. -/
def Obligations.IdleCoreWaits : Prop :=
  ∀ s : State, s.inputs = [] → step s = .next s

/-- R274, R276: every event ends, so no state stops the core: no fault and no refusal. -/
def Obligations.EveryStepCompletes : Prop :=
  ∀ s : State, ∃ t, step s = .next t

/-! ### The field and the tables (40_gf_and_tables.md) -/

/-- R119: GFMUL writes RES and the success result, whatever its operands; corner cases and example of the rule. -/
def Obligations.GfmulWritesProduct : Prop :=
  (∀ (a b : Byte) (s : State),
    encode (.gfmul a b) = BitVec.ofNat 32 (0x10 + 256 * a.toNat + 65536 * b.toNat) ∧
      exec (.gfmul a b) s = .next { s with res := multiply a b, err := 0, errInfo := 0 }) ∧
  (∀ a : Byte, multiply a 0 = 0 ∧ multiply 0 a = 0 ∧ multiply a 1 = a) ∧
  (∀ cw : Reg32, rsvField cw ≠ 0 → opField cw = 0x10 → decode cw = .error .reservedNonzero) ∧
  encode (.gfmul 15 6) = 0x00060F10 ∧ multiply 15 6 = 34

/-- R112: the laws of `multiply`. -/
def Obligations.MultiplyLaws : Prop :=
  (∀ a b : Byte, multiply a b = multiply b a) ∧
  (∀ a b c : Byte, multiply a (b ^^^ c) = multiply a b ^^^ multiply a c) ∧
  (∀ a : Byte, multiply a 0 = 0 ∧ multiply 0 a = 0 ∧ multiply a 1 = a ∧
    multiply a 2 = (if a.getLsbD 7 then (a <<< 1) ^^^ 0x1B else a <<< 1) ∧
    multiply a 3 = multiply a 2 ^^^ a) ∧
  ∀ a : Byte, a ≠ 0 → ∃ x, multiply a x = 1

/-- R115, R114: INVSBOX undoes SBOX both ways, and SBOX is the affine map of the field inverse, 0x00 taking the place of the
inverse 0x00 does not have. -/
def Obligations.SboxInverseAndDerivation : Prop :=
  (∀ x : Byte, invSbox (sbox x) = x ∧ sbox (invSbox x) = x) ∧
  sbox 0 = 0x63 ∧
  ∀ a : Byte, a ≠ 0 → ∃ x, multiply a x = 1 ∧
    sbox a = x ^^^ x.rotateLeft 1 ^^^ x.rotateLeft 2 ^^^ x.rotateLeft 3 ^^^ x.rotateLeft 4 ^^^ 0x63

/-- R117: INVMIX times MIX over the field is the identity; the rows are the rotations R116 and R117 give. -/
def Obligations.MixMatricesAreInverse : Prop :=
  (∀ r k : Fin 4, (mixRow r)[k.val] = (mixRow 0)[(k - r).val] ∧ (invMixRow r)[k.val] = (invMixRow 0)[(k - r).val]) ∧
  mixRow 0 = #v[2, 3, 1, 1] ∧ invMixRow 0 = #v[14, 11, 13, 9] ∧
  ∀ r c : Fin 4,
    multiply (invMixRow r)[0] (mixRow 0)[c.val] ^^^ multiply (invMixRow r)[1] (mixRow 1)[c.val] ^^^
      multiply (invMixRow r)[2] (mixRow 2)[c.val] ^^^ multiply (invMixRow r)[3] (mixRow 3)[c.val] =
        if r = c then 1 else 0

/-- R118: `rc_1 = 1` and `rc_j = multiply(2, rc_{j-1})`. -/
def Obligations.RoundConstantsByDoubling : Prop :=
  rc 1 = 1 ∧ ∀ j, 2 ≤ j → j ≤ 10 → rc j = multiply 2 (rc (j - 1))

/-! ### The key scheduler (42_key_schedule.md) -/

/-- R130, R131, R132: the word functions byte by byte; XOR with a round constant changes byte 0 only. -/
def Obligations.WordFunctions : Prop :=
  ∀ (b0 b1 b2 b3 : Byte) (j : Nat),
    rotWord #v[b0, b1, b2, b3] = #v[b1, b2, b3, b0] ∧
    subWord #v[b0, b1, b2, b3] = #v[sbox b0, sbox b1, sbox b2, sbox b3] ∧
    rcon j = #v[rc j, 0, 0, 0] ∧
    xorBytes #v[b0, b1, b2, b3] (rcon j) = #v[b0 ^^^ rc j, b1, b2, b3]

/-- R133: the words of the expansion: their number, the key's own words, and the recurrence for every other word. -/
def Obligations.ExpansionFollowsRecurrence : Prop :=
  ∀ key : List Byte, (key.length = 16 ∨ key.length = 24 ∨ key.length = 32) →
    (expand key).length = 4 * (key.length / 4 + 6 + 1) ∧
    (∀ k j, k < key.length / 4 → j < 4 → byteAt (wordAt (expand key) k) j = key.getD (4 * k + j) 0) ∧
    ∀ i, key.length / 4 ≤ i → i < 4 * (key.length / 4 + 6 + 1) →
      wordAt (expand key) i =
        xorBytes (wordAt (expand key) (i - key.length / 4))
          (if i % (key.length / 4) = 0 then
            xorBytes (subWord (rotWord (wordAt (expand key) (i - 1)))) (rcon (i / (key.length / 4)))
          else if key.length / 4 = 8 ∧ i % (key.length / 4) = 4 then subWord (wordAt (expand key) (i - 1))
          else wordAt (expand key) (i - 1))

/-- R138: KEXP builds the schedule of `KEY[0..KEYLEN)` for the three lengths, leaving the words above as they were, and
rejects every other length changing only ERR and ERRINFO; the rule's example. -/
def Obligations.KexpBuildsOrRejects : Prop :=
  encode .kexp = 0x00000020 ∧
  (∀ s : State, (s.keyLen = 16 ∨ s.keyLen = 24 ∨ s.keyLen = 32) →
    ∃ t, exec .kexp s = .next t ∧
      t = { s with
        ks := t.ks
        nk := BitVec.ofNat 8 (s.keyLen.toNat / 4)
        nr := BitVec.ofNat 8 (s.keyLen.toNat / 4 + 6)
        kvalid := true, err := 0, errInfo := 0 } ∧
      ∀ w, w < 60 → scheduleWord t.ks w =
        if w < 4 * (s.keyLen.toNat / 4 + 6 + 1) then wordAt (expand (s.key.toList.take s.keyLen.toNat)) w
        else scheduleWord s.ks w) ∧
  (∀ s : State, s.keyLen ≠ 16 → s.keyLen ≠ 24 → s.keyLen ≠ 32 →
    exec .kexp s = .next { s with err := 0x01, errInfo := s.keyLen }) ∧
  ∀ s : State, s.keyLen = 16 → (∀ i, i < 16 → byteAt s.key i = BitVec.ofNat 8 i) →
    ∃ t, exec .kexp s = .next t ∧ t.nk = 4 ∧ t.nr = 10 ∧ t.kvalid = true ∧
      scheduleWord t.ks 4 = #v[0xd6, 0xaa, 0x74, 0xfd] ∧ scheduleWord t.ks 43 = #v[0x4d, 0x2b, 0x30, 0xc5]

/-- R30, R136: round key `r` of the schedule in use is what the host reads at KS indices `16r .. 16r+15`: byte `j` of word
`4r + c` at `16r + 4c + j`, which is byte `4c + j` of the round key. -/
def Obligations.RoundKeyReadableThroughKs : Prop :=
  ∀ (s : State) (r c j : Nat), s.kvalid = true → r ≤ s.nr.toNat → s.nr.toNat ≤ 14 → c < 4 → j < 4 →
    16 * r + 4 * c + j < 240 ∧
    spaceByte s .ks (16 * r + 4 * c + j) = byteAt (scheduleWord s.ks (4 * r + c)) j ∧
    byteAt (roundKey (schedule s) r) (4 * c + j) = byteAt (scheduleWord s.ks (4 * r + c)) j

/-- R140: only a KEXP word and the reset input write KS, NK, NR or KVALID. -/
def Obligations.ScheduleWrittenOnlyByKexp : Prop :=
  ∀ s t : State, step s = .next t →
    (∀ rest, s.inputs ≠ .reset :: rest) → (∀ rest, s.inputs ≠ .issue 0x00000020 :: rest) →
      t.ks = s.ks ∧ t.nk = s.nk ∧ t.nr = s.nr ∧ t.kvalid = s.kvalid

/-! ### The round primitives (43_round_primitives.md) -/

/-- R150: SUBB: every byte looked up, no other state but the success result, the corner cases and the example. -/
def Obligations.SubbLooksUpEveryByte : Prop :=
  encode .subb = 0x00000030 ∧
  (∀ s : State, ∃ t, exec .subb s = .next t ∧ t = { s with st := t.st, err := 0, errInfo := 0 } ∧
    ∀ i, i < 16 → byteAt t.st i = sbox (byteAt s.st i)) ∧
  sbox 0x00 = 0x63 ∧ (∀ x : Byte, sbox x ≠ x) ∧
  (∀ x : Byte, subBytes (Vector.replicate 16 x) = Vector.replicate 16 (sbox x)) ∧
  subBytes #v[0x00, 0x10, 0x20, 0x30, 0x40, 0x50, 0x60, 0x70, 0x80, 0x90, 0xa0, 0xb0, 0xc0, 0xd0, 0xe0, 0xf0] =
    #v[0x63, 0xca, 0xb7, 0x04, 0x09, 0x53, 0xd0, 0x51, 0xcd, 0x60, 0xe0, 0xe7, 0xba, 0x70, 0xe1, 0x8c]

/-- R151: SHROW: row `r` moves left by `r` columns; row 0 stays, row 2's shift undoes itself; the example. -/
def Obligations.ShrowShiftsRowsLeft : Prop :=
  encode .shrow = 0x00000031 ∧
  (∀ s : State, ∃ t, exec .shrow s = .next t ∧ t = { s with st := t.st, err := 0, errInfo := 0 } ∧
    ∀ c r, c < 4 → r < 4 → byteAt t.st (4 * c + r) = byteAt s.st (4 * ((c + r) % 4) + r)) ∧
  (∀ (s : Block) (c : Nat), c < 4 → byteAt (shiftRows s) (4 * c) = byteAt s (4 * c) ∧
    byteAt (shiftRows (shiftRows s)) (4 * c + 2) = byteAt s (4 * c + 2)) ∧
  shiftRows #v[0x63, 0xca, 0xb7, 0x04, 0x09, 0x53, 0xd0, 0x51, 0xcd, 0x60, 0xe0, 0xe7, 0xba, 0x70, 0xe1, 0x8c] =
    #v[0x63, 0x53, 0xe0, 0x8c, 0x09, 0x60, 0xe1, 0x04, 0xcd, 0x70, 0xb7, 0x51, 0xba, 0xca, 0xd0, 0xe7]

/-- R153: MIXC: each output byte is a row of MIX times its column; the two examples. -/
def Obligations.MixcMultipliesColumns : Prop :=
  encode .mixc = 0x00000032 ∧
  (∀ s : State, ∃ t, exec .mixc s = .next t ∧ t = { s with st := t.st, err := 0, errInfo := 0 } ∧
    ∀ c, c < 4 → ∀ a0 a1 a2 a3 : Byte,
      a0 = byteAt s.st (4 * c) → a1 = byteAt s.st (4 * c + 1) → a2 = byteAt s.st (4 * c + 2) →
      a3 = byteAt s.st (4 * c + 3) →
        byteAt t.st (4 * c) = multiply 2 a0 ^^^ multiply 3 a1 ^^^ a2 ^^^ a3 ∧
        byteAt t.st (4 * c + 1) = a0 ^^^ multiply 2 a1 ^^^ multiply 3 a2 ^^^ a3 ∧
        byteAt t.st (4 * c + 2) = a0 ^^^ a1 ^^^ multiply 2 a2 ^^^ multiply 3 a3 ∧
        byteAt t.st (4 * c + 3) = multiply 3 a0 ^^^ a1 ^^^ a2 ^^^ multiply 2 a3) ∧
  (∀ (s : Block) (c : Nat), c < 4 → byteAt s (4 * c) = 0xdb → byteAt s (4 * c + 1) = 0x13 →
    byteAt s (4 * c + 2) = 0x53 → byteAt s (4 * c + 3) = 0x45 →
      byteAt (mixColumns s) (4 * c) = 0x8e ∧ byteAt (mixColumns s) (4 * c + 1) = 0x4d ∧
        byteAt (mixColumns s) (4 * c + 2) = 0xa1 ∧ byteAt (mixColumns s) (4 * c + 3) = 0xbc) ∧
  mixColumns #v[0x63, 0x53, 0xe0, 0x8c, 0x09, 0x60, 0xe1, 0x04, 0xcd, 0x70, 0xb7, 0x51, 0xba, 0xca, 0xd0, 0xe7] =
    #v[0x5f, 0x72, 0x64, 0x15, 0x57, 0xf5, 0xbc, 0x92, 0xf7, 0xbe, 0x3b, 0x29, 0x1d, 0xb9, 0xf9, 0x1a]

/-- R154: ADDRK r: the two checks in their order, the XOR of round key `r`, and the example. -/
def Obligations.AddrkChecksThenXors : Prop :=
  (∀ r : Byte, encode (.addrk r) = BitVec.ofNat 32 (0x33 + 256 * r.toNat)) ∧
  (∀ (r : Byte) (s : State), s.kvalid = false →
    exec (.addrk r) s = .next { s with err := 0x81, errInfo := 0 }) ∧
  (∀ (r : Byte) (s : State), s.kvalid = true → s.nr.toNat < r.toNat →
    exec (.addrk r) s = .next { s with err := 0x82, errInfo := BitVec.ofNat 32 r.toNat }) ∧
  (∀ (r : Byte) (s : State), s.kvalid = true → r.toNat ≤ s.nr.toNat →
    ∃ t, exec (.addrk r) s = .next t ∧ t = { s with st := t.st, err := 0, errInfo := 0 } ∧
      ∀ c j, c < 4 → j < 4 →
        byteAt t.st (4 * c + j) = byteAt s.st (4 * c + j) ^^^ byteAt (scheduleWord s.ks (4 * r.toNat + c)) j) ∧
  ∀ s : State, s.kvalid = true →
    (∀ w, w < 4 → scheduleWord s.ks w = #v[BitVec.ofNat 8 (4 * w), BitVec.ofNat 8 (4 * w + 1),
      BitVec.ofNat 8 (4 * w + 2), BitVec.ofNat 8 (4 * w + 3)]) →
    s.st = #v[0x00, 0x11, 0x22, 0x33, 0x44, 0x55, 0x66, 0x77, 0x88, 0x99, 0xaa, 0xbb, 0xcc, 0xdd, 0xee, 0xff] →
      ∃ t, exec (.addrk 0) s = .next t ∧
        t.st = #v[0x00, 0x10, 0x20, 0x30, 0x40, 0x50, 0x60, 0x70, 0x80, 0x90, 0xa0, 0xb0, 0xc0, 0xd0, 0xe0, 0xf0]

/-- R155: ISUBB: every byte looked up in INVSBOX, no other state but the success result; the example. -/
def Obligations.IsubbLooksUpEveryByte : Prop :=
  encode .isubb = 0x00000038 ∧
  (∀ s : State, ∃ t, exec .isubb s = .next t ∧ t = { s with st := t.st, err := 0, errInfo := 0 } ∧
    ∀ i, i < 16 → byteAt t.st i = invSbox (byteAt s.st i)) ∧
  invSubBytes #v[0x63, 0xca, 0xb7, 0x04, 0x09, 0x53, 0xd0, 0x51, 0xcd, 0x60, 0xe0, 0xe7, 0xba, 0x70, 0xe1, 0x8c] =
    #v[0x00, 0x10, 0x20, 0x30, 0x40, 0x50, 0x60, 0x70, 0x80, 0x90, 0xa0, 0xb0, 0xc0, 0xd0, 0xe0, 0xf0]

/-- R156: ISHROW: row `r` moves right by `r` columns; row 0 stays; the example. -/
def Obligations.IshrowShiftsRowsRight : Prop :=
  encode .ishrow = 0x00000039 ∧
  (∀ s : State, ∃ t, exec .ishrow s = .next t ∧ t = { s with st := t.st, err := 0, errInfo := 0 } ∧
    ∀ c r, c < 4 → r < 4 → byteAt t.st (4 * c + r) = byteAt s.st (4 * ((c + 4 - r) % 4) + r)) ∧
  (∀ (s : Block) (c : Nat), c < 4 → byteAt (invShiftRows s) (4 * c) = byteAt s (4 * c)) ∧
  invShiftRows #v[0x63, 0x53, 0xe0, 0x8c, 0x09, 0x60, 0xe1, 0x04, 0xcd, 0x70, 0xb7, 0x51, 0xba, 0xca, 0xd0, 0xe7] =
    #v[0x63, 0xca, 0xb7, 0x04, 0x09, 0x53, 0xd0, 0x51, 0xcd, 0x60, 0xe0, 0xe7, 0xba, 0x70, 0xe1, 0x8c]

/-- R157: IMIXC: each output byte is a row of INVMIX times its column; the MixColumns inverse law; a column of four equal
bytes is unchanged; the two examples. -/
def Obligations.ImixcMultipliesColumns : Prop :=
  encode .imixc = 0x0000003A ∧
  (∀ s : State, ∃ t, exec .imixc s = .next t ∧ t = { s with st := t.st, err := 0, errInfo := 0 } ∧
    ∀ c, c < 4 → ∀ a0 a1 a2 a3 : Byte,
      a0 = byteAt s.st (4 * c) → a1 = byteAt s.st (4 * c + 1) → a2 = byteAt s.st (4 * c + 2) →
      a3 = byteAt s.st (4 * c + 3) →
        byteAt t.st (4 * c) = multiply 14 a0 ^^^ multiply 11 a1 ^^^ multiply 13 a2 ^^^ multiply 9 a3 ∧
        byteAt t.st (4 * c + 1) = multiply 9 a0 ^^^ multiply 14 a1 ^^^ multiply 11 a2 ^^^ multiply 13 a3 ∧
        byteAt t.st (4 * c + 2) = multiply 13 a0 ^^^ multiply 9 a1 ^^^ multiply 14 a2 ^^^ multiply 11 a3 ∧
        byteAt t.st (4 * c + 3) = multiply 11 a0 ^^^ multiply 13 a1 ^^^ multiply 9 a2 ^^^ multiply 14 a3) ∧
  (∀ (s : Block) (c : Nat) (x : Byte), c < 4 → (∀ k, k < 4 → byteAt s (4 * c + k) = x) →
    ∀ k, k < 4 → byteAt (invMixColumns s) (4 * c + k) = x) ∧
  (∀ s : Block, invMixColumns (mixColumns s) = s) ∧
  (∀ (s : Block) (c : Nat), c < 4 → byteAt s (4 * c) = 0x8e → byteAt s (4 * c + 1) = 0x4d →
    byteAt s (4 * c + 2) = 0xa1 → byteAt s (4 * c + 3) = 0xbc →
      byteAt (invMixColumns s) (4 * c) = 0xdb ∧ byteAt (invMixColumns s) (4 * c + 1) = 0x13 ∧
        byteAt (invMixColumns s) (4 * c + 2) = 0x53 ∧ byteAt (invMixColumns s) (4 * c + 3) = 0x45) ∧
  invMixColumns #v[0x5f, 0x72, 0x64, 0x15, 0x57, 0xf5, 0xbc, 0x92, 0xf7, 0xbe, 0x3b, 0x29, 0x1d, 0xb9, 0xf9, 0x1a] =
    #v[0x63, 0x53, 0xe0, 0x8c, 0x09, 0x60, 0xe1, 0x04, 0xcd, 0x70, 0xb7, 0x51, 0xba, 0xca, 0xd0, 0xe7]

/-- What R151, R153, R154, R155, R156 and R157 derive of their primitives, for every State and every round key: each is
undone by its inverse, from either side, and a column of four equal bytes passes MIXC unchanged. -/
def Obligations.PrimitivesUndoOneAnother : Prop :=
  ∀ s : Block,
    (invSubBytes (subBytes s) = s ∧ subBytes (invSubBytes s) = s) ∧
    (invShiftRows (shiftRows s) = s ∧ shiftRows (invShiftRows s) = s) ∧
    shiftRows (shiftRows (shiftRows (shiftRows s))) = s ∧
    (invMixColumns (mixColumns s) = s ∧ mixColumns (invMixColumns s) = s) ∧
    (∀ k : Block, addRoundKey (addRoundKey s k) k = s) ∧
    (∀ (r : Byte) (m t u : State), m.st = s → m.kvalid = true → r.toNat ≤ m.nr.toNat →
      exec (.addrk r) m = .next t → exec (.addrk r) t = .next u → u.st = s) ∧
    ∀ (c : Nat) (x : Byte), c < 4 → (∀ k, k < 4 → byteAt s (4 * c + k) = x) →
      ∀ k, k < 4 → byteAt (mixColumns s) (4 * c + k) = x

/-! ### The block cipher (44_block_cipher.md) -/

/-- R171: ENCB with and without a schedule, and the source's cipher vector. -/
def Obligations.EncbEncryptsSt : Prop :=
  encode .encb = 0x00000040 ∧
  (∀ s : State, s.kvalid = true →
    exec .encb s = .next { s with st := encrypt ⟨s.ks, s.nr.toNat⟩ s.st, err := 0, errInfo := 0 }) ∧
  (∀ s : State, s.kvalid = false → exec .encb s = .next { s with err := 0x81, errInfo := 0 }) ∧
  ∀ s : State, s.kvalid = true → s.nr = 10 →
    (∀ w, w < 44 → scheduleWord s.ks w = wordAt (expand ((List.range 16).map (BitVec.ofNat 8))) w) →
    s.st = #v[0x00, 0x11, 0x22, 0x33, 0x44, 0x55, 0x66, 0x77, 0x88, 0x99, 0xaa, 0xbb, 0xcc, 0xdd, 0xee, 0xff] →
      ∃ t, exec .encb s = .next t ∧
        t.st = #v[0x69, 0xc4, 0xe0, 0xd8, 0x6a, 0x7b, 0x04, 0x30, 0xd8, 0xcd, 0xb7, 0x80, 0x70, 0xb4, 0xc5, 0x5a]

/-- R173: DECB with and without a schedule, and the rule's example. -/
def Obligations.DecbDecryptsSt : Prop :=
  encode .decb = 0x00000041 ∧
  (∀ s : State, s.kvalid = true →
    exec .decb s = .next { s with st := decrypt ⟨s.ks, s.nr.toNat⟩ s.st, err := 0, errInfo := 0 }) ∧
  (∀ s : State, s.kvalid = false → exec .decb s = .next { s with err := 0x81, errInfo := 0 }) ∧
  ∀ s : State, s.kvalid = true → s.nr = 10 →
    (∀ w, w < 44 → scheduleWord s.ks w = wordAt (expand ((List.range 16).map (BitVec.ofNat 8))) w) →
    s.st = #v[0x69, 0xc4, 0xe0, 0xd8, 0x6a, 0x7b, 0x04, 0x30, 0xd8, 0xcd, 0xb7, 0x80, 0x70, 0xb4, 0xc5, 0x5a] →
      ∃ t, exec .decb s = .next t ∧
        t.st = #v[0x00, 0x11, 0x22, 0x33, 0x44, 0x55, 0x66, 0x77, 0x88, 0x99, 0xaa, 0xbb, 0xcc, 0xdd, 0xee, 0xff]

/-- R174: Decrypt undoes Encrypt and Encrypt undoes Decrypt, for every State and every schedule. -/
def Obligations.DecryptInvertsEncrypt : Prop :=
  ∀ (k : Schedule) (s : Block), decrypt k (encrypt k s) = s ∧ encrypt k (decrypt k s) = s

/-- R175: ENCB and DECB equal in effect the primitive commands issued in the order the rule lists. -/
def Obligations.BlockCommandsEqualPrimitives : Prop :=
  ∀ s : State, s.kvalid = true →
    (∃ t, exec .encb s = .next t ∧ execAll (encbPrimitives s.nr.toNat) s = .next t) ∧
    ∃ t, exec .decb s = .next t ∧ execAll (decbPrimitives s.nr.toNat) s = .next t

/-! ### Padding (46_padding.md) -/

/-- R202: PAD: the input, then `16 - ILEN mod 16` bytes of that value; or LengthOverflow; the example. That OBUF at and
above OLEN is left as it was is the model's choice (log 8). -/
def Obligations.PadAppendsPadding : Prop :=
  encode .pad = 0x00000060 ∧
  (∀ s : State, s.ilen.toNat ≤ s.cfg.bufMax →
    ∃ t, exec .pad s = .next t ∧
      t = { s with
        obuf := t.obuf, olen := BitVec.ofNat 32 (16 * (s.ilen.toNat / 16 + 1)), err := 0, errInfo := 0 } ∧
      t.olen.toNat = 16 * (s.ilen.toNat / 16 + 1) ∧
      (∀ i, i < s.ilen.toNat → obufByte t i = ibufByte s i) ∧
      (∀ i, s.ilen.toNat ≤ i → i < t.olen.toNat → obufByte t i = BitVec.ofNat 8 (16 - s.ilen.toNat % 16)) ∧
      ∀ i, t.olen.toNat ≤ i → t.obuf.read i = s.obuf.read i) ∧
  (∀ s : State, s.cfg.bufMax < s.ilen.toNat →
    exec .pad s = .next { s with olen := 0, err := 0x83, errInfo := s.ilen }) ∧
  padInput [0x61, 0x62, 0x63] = [0x61, 0x62, 0x63] ++ List.replicate 13 0x0d

/-- R204, R206: STRIP: the checks in their order, each with its code and value, and on success the input without its
padding; the example. That OBUF at and above OLEN is left as it was, and all of it on a failure, is the model's choice
(log 8). -/
def Obligations.StripChecksThenRemovesPadding : Prop :=
  encode .strip = 0x00000061 ∧
  (∀ s : State, s.cfg.bufMax + 16 < s.ilen.toNat →
    exec .strip s = .next { s with olen := 0, err := 0x83, errInfo := s.ilen }) ∧
  (∀ s : State, s.ilen.toNat ≤ s.cfg.bufMax + 16 → s.ilen.toNat % 16 ≠ 0 →
    exec .strip s = .next { s with olen := 0, err := 0x03, errInfo := s.ilen }) ∧
  (∀ s : State, s.ilen = 0 → exec .strip s = .next { s with olen := 0, err := 0x04, errInfo := 0 }) ∧
  (∀ (s : State) (p : Nat), s.ilen.toNat ≤ s.cfg.bufMax + 16 → s.ilen.toNat % 16 = 0 → s.ilen ≠ 0 →
    p = (ibufByte s (s.ilen.toNat - 1)).toNat →
      ((p = 0 ∨ 16 < p) →
        exec .strip s = .next { s with olen := 0, err := 0x05, errInfo := BitVec.ofNat 32 p }) ∧
      (1 ≤ p → p ≤ 16 → (∃ j, s.ilen.toNat - p ≤ j ∧ j < s.ilen.toNat ∧ (ibufByte s j).toNat ≠ p) →
        exec .strip s = .next { s with olen := 0, err := 0x06, errInfo := BitVec.ofNat 32 p }) ∧
      (1 ≤ p → p ≤ 16 → (∀ j, s.ilen.toNat - p ≤ j → j < s.ilen.toNat → (ibufByte s j).toNat = p) →
        ∃ t, exec .strip s = .next t ∧
          t = { s with obuf := t.obuf, olen := BitVec.ofNat 32 (s.ilen.toNat - p), err := 0, errInfo := 0 } ∧
          (∀ i, i < s.ilen.toNat - p → obufByte t i = ibufByte s i) ∧
          ∀ i, s.ilen.toNat - p ≤ i → t.obuf.read i = s.obuf.read i)) ∧
  stripOutput ([0x61, 0x62, 0x63] ++ List.replicate 13 0x0d) = .ok [0x61, 0x62, 0x63]

/-- R205: stripping what the padder made gives back every byte sequence, and on the machine PAD then STRIP of its output
returns the input. -/
def Obligations.StripUndoesPad : Prop :=
  (∀ x : List Byte, stripOutput (padInput x) = .ok x) ∧
  ∀ s t u : State, s.ilen.toNat ≤ s.cfg.bufMax → exec .pad s = .next t →
    u.cfg = s.cfg → u.ilen = t.olen → inputBytes u = outputBytes t →
      ∃ v, exec .strip u = .next v ∧ v.err = 0 ∧ v.olen = s.ilen ∧ outputBytes v = inputBytes s

/-! ### CBC chaining (45_cbc.md) -/

/-- R180: the ciphertext blocks: as many as the padded plaintext has, each the encryption of its plaintext block XOR the
block before it, the first XOR the IV. -/
def Obligations.CbcEncryptChainsBlocks : Prop :=
  ∀ (k : Schedule) (iv : Block) (plaintext : List Byte),
    (cbcEncrypt k iv plaintext).length = 16 * (plaintext.length / 16 + 1) ∧
    ∀ i, i ≤ plaintext.length / 16 →
      blockAt (cbcEncrypt k iv plaintext) i =
        encrypt k (xorBytes (blockAt (padInput plaintext) i)
          (if i = 0 then iv else blockAt (cbcEncrypt k iv plaintext) (i - 1)))

/-- R183: a ragged length fails first; otherwise the result is the stripper's on the plaintext blocks, each the decryption
of its ciphertext block XOR the ciphertext block before it, the first XOR the IV. -/
def Obligations.CbcDecryptChainsBlocks : Prop :=
  ∀ (k : Schedule) (iv : Block) (ciphertext : List Byte),
    (ciphertext.length % 16 ≠ 0 →
      cbcDecrypt k iv ciphertext = .error ⟨.invalidCipherText, BitVec.ofNat 32 ciphertext.length⟩) ∧
    (ciphertext.length % 16 = 0 →
      ∃ plain : List Byte, plain.length = ciphertext.length ∧
        (∀ i, i < ciphertext.length / 16 →
          blockAt plain i = xorBytes (decrypt k (blockAt ciphertext i))
            (if i = 0 then iv else blockAt ciphertext (i - 1))) ∧
        cbcDecrypt k iv ciphertext = stripOutput plain)

/-- R182: CBCENC on success: the output is R180's, CHAIN, BLK, PHASE, ST, OLEN end as the rule says; on NoKeySchedule and
LengthOverflow the abort of R240; the source's CBC vector. That OBUF at and above OLEN is left as it was, and all of it on a
failure, is the model's choice (log 8). -/
def Obligations.CbcencOutputsCiphertext : Prop :=
  encode .cbcenc = 0x00000050 ∧
  (∀ s : State, s.kvalid = true → s.ilen.toNat ≤ s.cfg.bufMax →
    ∃ t, exec .cbcenc s = .next t ∧
      outputBytes t = cbcEncrypt ⟨s.ks, s.nr.toNat⟩ s.iv (inputBytes s) ∧
      t = { s with
        obuf := t.obuf
        olen := BitVec.ofNat 32 (16 * (s.ilen.toNat / 16 + 1))
        chain := blockAt (outputBytes t) (s.ilen.toNat / 16)
        blk := BitVec.ofNat 32 (s.ilen.toNat / 16 + 1)
        phase := .done, st := zeroBlock, err := 0, errInfo := 0 } ∧
      ∀ i, 16 * (s.ilen.toNat / 16 + 1) ≤ i → t.obuf.read i = s.obuf.read i) ∧
  (∀ s : State, s.kvalid = false →
    exec .cbcenc s = .next { s with
      olen := 0, phase := .init, blk := 0, st := zeroBlock, chain := zeroBlock, err := 0x81, errInfo := 0 }) ∧
  (∀ s : State, s.kvalid = true → s.cfg.bufMax < s.ilen.toNat →
    exec .cbcenc s = .next { s with
      olen := 0, phase := .init, blk := 0, st := zeroBlock, chain := zeroBlock, err := 0x83, errInfo := s.ilen }) ∧
  ∀ k : Schedule, k.rounds = 10 →
    (∀ w, w < 44 → scheduleWord k.words w = wordAt (expand ((List.range 16).map (BitVec.ofNat 8))) w) →
      blockAt (cbcEncrypt k
        #v[0x66, 0x47, 0x78, 0x53, 0x57, 0x64, 0x35, 0x39, 0x41, 0x59, 0x64, 0x69, 0x51, 0x58, 0x5a, 0x53]
        [0x00, 0x11, 0x22, 0x33, 0x44, 0x55, 0x66, 0x77, 0x88, 0x99, 0xaa, 0xbb, 0xcc, 0xdd, 0xee, 0xff]) 0 =
        #v[0x3b, 0x43, 0x88, 0x86, 0x4f, 0x4e, 0xbd, 0x72, 0x89, 0x96, 0xcf, 0x94, 0xba, 0x75, 0x82, 0xb2]

/-- R184: CBCDEC where R183 succeeds, where it fails, and on LengthOverflow. That OBUF at and above OLEN is left as it was,
and all of it on a failure, is the model's choice (log 8): R184 lets the plaintext be staged there, unreadable. -/
def Obligations.CbcdecOutputsPlaintextOrAborts : Prop :=
  encode .cbcdec = 0x00000051 ∧
  (∀ (s : State) (out : List Byte), s.kvalid = true → s.ilen.toNat ≤ s.cfg.bufMax + 16 →
    cbcDecrypt ⟨s.ks, s.nr.toNat⟩ s.iv (inputBytes s) = .ok out →
      ∃ t, exec .cbcdec s = .next t ∧ outputBytes t = out ∧
        t = { s with
          obuf := t.obuf
          olen := BitVec.ofNat 32 out.length
          chain := blockAt (inputBytes s) (s.ilen.toNat / 16 - 1)
          blk := BitVec.ofNat 32 (s.ilen.toNat / 16)
          phase := .done, st := zeroBlock, err := 0, errInfo := 0 } ∧
        ∀ i, out.length ≤ i → t.obuf.read i = s.obuf.read i) ∧
  (∀ (s : State) (f : Failure), s.kvalid = true → s.ilen.toNat ≤ s.cfg.bufMax + 16 →
    cbcDecrypt ⟨s.ks, s.nr.toNat⟩ s.iv (inputBytes s) = .error f →
      exec .cbcdec s = .next { s with
        olen := 0, phase := .init, blk := 0, st := zeroBlock, chain := zeroBlock
        err := f.kind.code, errInfo := f.info }) ∧
  ∀ s : State, s.kvalid = true → s.cfg.bufMax + 16 < s.ilen.toNat →
    exec .cbcdec s = .next { s with
      olen := 0, phase := .init, blk := 0, st := zeroBlock, chain := zeroBlock, err := 0x83, errInfo := s.ilen }

/-- R189: a length that is not a multiple of 16 yields InvalidCipherText once a schedule exists and the length is within
the buffer; without a schedule NoKeySchedule takes precedence, above the buffer LengthOverflow. -/
def Obligations.CbcdecRejectsRaggedLength : Prop :=
  ∀ s : State, s.ilen.toNat % 16 ≠ 0 →
    exec .cbcdec s = .next { s with
      olen := 0, phase := .init, blk := 0, st := zeroBlock, chain := zeroBlock
      err := if s.kvalid = false then 0x81 else if s.cfg.bufMax + 16 < s.ilen.toNat then 0x83 else 0x02
      errInfo := if s.kvalid = false then 0 else s.ilen }

/-- R188: CBCENC, its output taken as input, then CBCDEC under the same schedule and IV, returns the plaintext. -/
def Obligations.CbcRoundTrip : Prop :=
  ∀ s t u : State, s.kvalid = true → s.ilen.toNat ≤ s.cfg.bufMax → exec .cbcenc s = .next t →
    u.kvalid = true → u.ks = s.ks → u.nr = s.nr → u.iv = s.iv → u.cfg = s.cfg →
    u.ilen = t.olen → inputBytes u = outputBytes t →
      ∃ v, exec .cbcdec u = .next v ∧ v.err = 0 ∧ v.olen = s.ilen ∧ outputBytes v = inputBytes s

/-- R27, R186: nothing carries over from one CBC command to the next: what an earlier command left in ST, CHAIN, PHASE,
BLK, OBUF, OLEN, RES, ERR and ERRINFO has no influence on the result. -/
def Obligations.CbcCommandsIgnoreLeftovers : Prop :=
  ∀ (i : Instr) (s s' : State), (i = .cbcenc ∨ i = .cbcdec) →
    s' = { s with
      st := s'.st, chain := s'.chain, phase := s'.phase, blk := s'.blk, obuf := s'.obuf, olen := s'.olen
      res := s'.res, err := s'.err, errInfo := s'.errInfo } →
      ∃ t t', exec i s = .next t ∧ exec i s' = .next t' ∧
        outputBytes t' = outputBytes t ∧ t' = { t with obuf := t'.obuf, res := s'.res }

/-- R38, R37: PHASE and BLK after a CBC command, and that no other command changes them. -/
def Obligations.PhaseAndBlkFollowCbc : Prop :=
  ∀ (i : Instr) (s t : State), exec i s = .next t →
    if i = .cbcenc ∨ i = .cbcdec then
      (t.err = 0 → t.phase = .done ∧
        t.blk = BitVec.ofNat 32 (if i = .cbcenc then s.ilen.toNat / 16 + 1 else s.ilen.toNat / 16)) ∧
      (t.err ≠ 0 → t.phase = .init ∧ t.blk = 0)
    else t.phase = s.phase ∧ t.blk = s.blk

/-! ### IV generation (47_iv.md) -/

/-- R211: IVGEN loads the next draw and writes nothing else of the core, for every value of the draw. That the draws are
numbered is the model's form of a free input (log 2). -/
def Obligations.IvgenLoadsDraw : Prop :=
  encode .ivgen = 0x00000070 ∧
  ∀ s : State, ∃ t, exec .ivgen s = .next t ∧
    t = { s with iv := t.iv, draws := s.draws + 1, err := 0, errInfo := 0 } ∧
    ∀ i, i < 16 → byteAt t.iv i = Config.entropyByte s.draws i

/-- R26, R212: only an IVGEN word, a host write to the IV and the reset input change the IV. -/
def Obligations.IvChangesOnlyByHostOrIvgen : Prop :=
  ∀ s t : State, step s = .next t →
    (∀ rest, s.inputs ≠ .reset :: rest) → (∀ rest, s.inputs ≠ .issue 0x00000070 :: rest) →
    (∀ j v rest, s.inputs ≠ .dataWrite 1 j v :: rest) →
      t.iv = s.iv

/-! ### Errors (60_exceptions.md) -/

/-- R231: with no schedule, the five commands that need round keys report NoKeySchedule before anything else; the abort of
R240 follows the command. -/
def Obligations.NoScheduleReportedFirst : Prop :=
  ∀ s : State, s.kvalid = false →
    (∀ r, exec (.addrk r) s = .next { s with err := 0x81, errInfo := 0 }) ∧
    exec .encb s = .next { s with err := 0x81, errInfo := 0 } ∧
    exec .decb s = .next { s with err := 0x81, errInfo := 0 } ∧
    exec .cbcenc s = .next { s with
      olen := 0, phase := .init, blk := 0, st := zeroBlock, chain := zeroBlock, err := 0x81, errInfo := 0 } ∧
    exec .cbcdec s = .next { s with
      olen := 0, phase := .init, blk := 0, st := zeroBlock, chain := zeroBlock, err := 0x81, errInfo := 0 }

/-- R221 to R233: which command reports which code, with which value and for which cause in the state before; for the
padding errors that is the last byte of the buffer being stripped (R226) and a byte that differs from it (R228). No other
value of ERR occurs. -/
def Obligations.ErrorCodesAndCauses : Prop :=
  ∀ (i : Instr) (s t : State), exec i s = .next t →
    (t.err = 0x00 ∧ t.errInfo = 0) ∨
    (t.err = 0x01 ∧ i = .kexp ∧ t.errInfo = s.keyLen ∧ s.keyLen ≠ 16 ∧ s.keyLen ≠ 24 ∧ s.keyLen ≠ 32) ∨
    (t.err = 0x02 ∧ i = .cbcdec ∧ t.errInfo = s.ilen ∧ s.ilen.toNat % 16 ≠ 0) ∨
    (t.err = 0x03 ∧ i = .strip ∧ t.errInfo = s.ilen ∧ s.ilen.toNat % 16 ≠ 0) ∨
    (t.err = 0x04 ∧ (i = .strip ∨ i = .cbcdec) ∧ t.errInfo = 0 ∧ s.ilen = 0) ∨
    (t.err = 0x05 ∧ (i = .strip ∨ i = .cbcdec) ∧ s.ilen ≠ 0 ∧ s.ilen.toNat % 16 = 0 ∧
      t.errInfo = (strippedByte i s (s.ilen.toNat - 1)).zeroExtend 32 ∧
      (t.errInfo = 0 ∨ 16 < t.errInfo.toNat)) ∨
    (t.err = 0x06 ∧ (i = .strip ∨ i = .cbcdec) ∧ s.ilen ≠ 0 ∧ s.ilen.toNat % 16 = 0 ∧
      t.errInfo = (strippedByte i s (s.ilen.toNat - 1)).zeroExtend 32 ∧
      1 ≤ t.errInfo.toNat ∧ t.errInfo.toNat ≤ 16 ∧
      ∃ j, s.ilen.toNat - t.errInfo.toNat ≤ j ∧ j < s.ilen.toNat ∧
        strippedByte i s j ≠ strippedByte i s (s.ilen.toNat - 1)) ∨
    (t.err = 0x81 ∧ (i = .encb ∨ i = .decb ∨ i = .cbcenc ∨ i = .cbcdec ∨ ∃ r, i = .addrk r) ∧
      t.errInfo = 0 ∧ s.kvalid = false) ∨
    (t.err = 0x82 ∧ ∃ r, i = .addrk r ∧ t.errInfo = BitVec.ofNat 32 r.toNat ∧ s.nr.toNat < r.toNat) ∨
    (t.err = 0x83 ∧ t.errInfo = s.ilen ∧
      (((i = .pad ∨ i = .cbcenc) ∧ s.cfg.bufMax < s.ilen.toNat) ∨
        ((i = .strip ∨ i = .cbcdec) ∧ s.cfg.bufMax + 16 < s.ilen.toNat)))

/-- R240: a failed command changes ERR and ERRINFO and, by command, what the abort clears, and nothing else. -/
def Obligations.FailureChangesOnlyAbortRegisters : Prop :=
  ∀ (i : Instr) (s t : State), exec i s = .next t → t.err ≠ 0 →
    t = match i with
      | .cbcenc | .cbcdec => { s with
          err := t.err, errInfo := t.errInfo
          olen := 0, phase := .init, blk := 0, st := zeroBlock, chain := zeroBlock }
      | .pad | .strip => { s with err := t.err, errInfo := t.errInfo, olen := 0 }
      | _ => { s with err := t.err, errInfo := t.errInfo }

/-- R24, R28, R32: no command writes KEY, KEYLEN, IBUF or ILEN, and only GFMUL writes RES; the model's own fields but the
count of draws are untouched as well. -/
def Obligations.CommandsLeaveHostInputs : Prop :=
  ∀ (i : Instr) (s t : State), exec i s = .next t →
    t.key = s.key ∧ t.keyLen = s.keyLen ∧ t.ibuf = s.ibuf ∧ t.ilen = s.ilen ∧
    ((∀ a b, i ≠ .gfmul a b) → t.res = s.res) ∧
    t.cfg = s.cfg ∧ t.resets = s.resets ∧ t.inputs = s.inputs ∧ t.responses = s.responses ∧
    (i ≠ .ivgen → t.draws = s.draws)

/-! ### The machine as a whole -/

/-- The invariant holds after reset. -/
def Obligations.ResetMeetsInvariant : Prop :=
  CoreSound State.reset

/-- R29, R31, R33, R37, R38, R221, R241: every step, from every state that meets the invariant, keeps it: the schedule's
registers stay a legal pair, a schedule in use stays the expansion of its first words, the buffer stores stay canonical
and within bounds, every readable output byte was written, PHASE and BLK stay settled, ERR stays a code of the table. -/
def Obligations.StepKeepsInvariant : Prop :=
  ∀ s t : State, CoreSound s → step s = .next t → CoreSound t

/-- R44, R30, R33: the KS words no schedule covers and the OBUF bytes at and above OLEN are unobservable: from two states
that differ only there, the same step is taken, every answer to the host is the same, and they differ only there again. -/
def Obligations.HiddenStoresNeverShow : Prop :=
  ∀ s s' t : State, SameToHost s s' → step s = .next t →
    ∃ t', step s' = .next t' ∧ SameToHost t t'

/-! ### The source's public operations (30_encoding.md R104) -/

/-- R104, R243: what `new_key_schedule`, `encrypt` and `decrypt`, performed by the host as R104 writes them, return: the
schedule of the key or InvalidKeySize with the length; the ciphertext; the plaintext or the error. Inputs the host can hand
over only: lengths of 32 bits (log 17), and data the input buffer holds. -/
def Obligations.PublicOperationsReturnTheirResults : Prop :=
  (∀ (key : List Byte) (s : State), key.length < 2 ^ 32 →
    ∃ t answers, newKeySchedule key s = .next t ∧ t.responses = s.responses ++ answers ∧
      if key.length = 16 ∨ key.length = 24 ∨ key.length = 32 then
        keyScheduleReturned answers t = .ok (⟨t.ks, key.length / 4 + 6⟩, BitVec.ofNat 8 (key.length / 4)) ∧
        t.kvalid = true ∧
        ∀ w, w < 4 * (key.length / 4 + 6 + 1) → scheduleWord t.ks w = wordAt (expand key) w
      else
        keyScheduleReturned answers t = .error (0x01, BitVec.ofNat 32 key.length) ∧
        t.ks = s.ks ∧ t.nk = s.nk ∧ t.nr = s.nr ∧ t.kvalid = s.kvalid) ∧
  (∀ (plaintext : List Byte) (s : State), plaintext.length ≤ s.cfg.bufMax + 16 →
    ∃ t answers, encryptOperation plaintext s = .next t ∧ t.responses = s.responses ++ answers ∧
      bytesReturned answers =
        if s.kvalid = false then .error 0x81
        else if s.cfg.bufMax < plaintext.length then .error 0x83
        else .ok (cbcEncrypt (schedule s) s.iv plaintext)) ∧
  ∀ (ciphertext : List Byte) (s : State), ciphertext.length ≤ s.cfg.bufMax + 16 →
    ∃ t answers, decryptOperation ciphertext s = .next t ∧ t.responses = s.responses ++ answers ∧
      bytesReturned answers =
        if s.kvalid = false then .error 0x81
        else match cbcDecrypt (schedule s) s.iv ciphertext with
          | .ok plaintext => .ok plaintext
          | .error f => .error (f.kind.code.zeroExtend 32)
end

