-- ==== Sys2Proof/Laws/Memory.lean ====
section
/-! SUPPORT. Laws of the buffer stores: a read after a write, and the canonical form kept by every operation. -/

namespace Sys2Proof.Machine

theorem Memory.read_write_same (m : Memory) (i : Nat) (v : Byte) : (m.write i v).read i = some v := by
  induction m with
  | nil => simp [Memory.write, Memory.read]
  | cons c m ih =>
    obtain ⟨a, w⟩ := c
    simp only [Memory.write]
    split
    · simp [Memory.read]
    · split
      · simp [Memory.read]
      · simp [Memory.read, *]

theorem Memory.read_write_other (m : Memory) {i j : Nat} (v : Byte) (h : j ≠ i) :
    (m.write i v).read j = m.read j := by
  induction m with
  | nil => simp [Memory.write, Memory.read, h]
  | cons c m ih =>
    obtain ⟨a, w⟩ := c
    simp only [Memory.write]
    split
    · simp [Memory.read, h]
    · split
      · subst_vars; simp [Memory.read, h]
      · simp [Memory.read, ih]

/-- One write, said once: what every index reads as afterwards. -/
theorem Memory.read_write (m : Memory) (i j : Nat) (v : Byte) :
    (m.write i v).read j = if j = i then some v else m.read j := by
  split
  · subst_vars; exact m.read_write_same _ v
  · exact m.read_write_other v ‹_›

/-- A run of bytes, said once: what every index reads as afterwards. -/
theorem Memory.read_writeBytes (m : Memory) (i j : Nat) (bs : List Byte) :
    (m.writeBytes i bs).read j = if i ≤ j ∧ j < i + bs.length then bs[j - i]? else m.read j := by
  induction bs generalizing m i with
  | nil => simp [Memory.writeBytes]
  | cons v bs ih =>
    simp only [Memory.writeBytes, ih, Memory.read_write, List.length_cons]
    by_cases hj : j = i
    · subst hj; simp
    · by_cases hlt : i + 1 ≤ j ∧ j < i + 1 + bs.length
      · have h2 : i ≤ j ∧ j < i + (bs.length + 1) := by omega
        have h3 : j - i = (j - (i + 1)) + 1 := by omega
        rw [if_pos hlt, if_pos h2, h3, List.getElem?_cons_succ]
      · have h2 : ¬(i ≤ j ∧ j < i + (bs.length + 1)) := by omega
        rw [if_neg hlt, if_neg hj, if_neg h2]

/-- The canonical form as a pairwise order, for proofs. -/
theorem Memory.wf_cons (a : Nat) (w : Byte) (m : Memory) :
    Memory.wf ((a, w) :: m) = true ↔ (∀ c ∈ m.head?, a < c.1) ∧ Memory.wf m = true := by
  cases m with
  | nil => simp [Memory.wf]
  | cons c m => obtain ⟨b, v⟩ := c; simp [Memory.wf]

theorem Memory.head_write (m : Memory) (i : Nat) (v : Byte) (c : Host.Cell) (h : c ∈ (m.write i v).head?) :
    c.1 = i ∨ c ∈ m.head? := by
  cases m with
  | nil => simp [Memory.write] at h; simp [← h]
  | cons d m =>
    obtain ⟨a, w⟩ := d
    simp only [Memory.write] at h
    split at h
    · simp at h; simp [← h]
    · split at h
      · simp at h; simp [← h]
      · simp at h; simp [← h]

theorem Memory.write_wf (m : Memory) (i : Nat) (v : Byte) (h : m.wf = true) : (m.write i v).wf = true := by
  induction m with
  | nil => rfl
  | cons c m ih =>
    obtain ⟨a, w⟩ := c
    have hc := (Memory.wf_cons a w m).1 h
    simp only [Memory.write]
    split
    · rw [Memory.wf_cons]; exact ⟨by simpa, h⟩
    · split
      · subst_vars; exact (Memory.wf_cons _ v m).2 hc
      · rw [Memory.wf_cons]
        refine ⟨fun d hd => ?_, ih hc.2⟩
        rcases Memory.head_write m i v d hd with h' | h'
        · omega
        · exact hc.1 d h'

theorem Memory.writeBytes_wf (m : Memory) (i : Nat) (bs : List Byte) (h : m.wf = true) :
    (m.writeBytes i bs).wf = true := by
  induction bs generalizing m i with
  | nil => exact h
  | cons v bs ih => exact ih _ _ (m.write_wf i v h)

theorem reset_buffers_wf : State.reset.ibuf.wf = true ∧ State.reset.obuf.wf = true := ⟨rfl, rfl⟩

/-- A canonical store is determined by what it reads as: equal memories are equal data. -/
theorem Memory.read_below_head (m : Memory) (h : m.wf = true) (j : Nat) (hj : ∀ c ∈ m.head?, j < c.1) :
    m.read j = none := by
  induction m with
  | nil => rfl
  | cons c m ih =>
    obtain ⟨a, w⟩ := c
    have hc := (Memory.wf_cons a w m).1 h
    have ha : j < a := by simpa using hj
    simp only [Memory.read]
    rw [if_neg (by omega)]
    exact ih hc.2 fun d hd => by have := hc.1 d hd; omega

theorem Memory.ext_of_wf (m n : Memory) (hm : m.wf = true) (hn : n.wf = true) (h : ∀ i, m.read i = n.read i) :
    m = n := by
  induction m generalizing n with
  | nil =>
    cases n with
    | nil => rfl
    | cons c n => obtain ⟨a, w⟩ := c; have := h a; simp [Memory.read] at this
  | cons c m ih =>
    obtain ⟨a, w⟩ := c
    cases n with
    | nil => have := h a; simp [Memory.read] at this
    | cons d n =>
      obtain ⟨b, v⟩ := d
      have hca := (Memory.wf_cons a w m).1 hm
      have hcb := (Memory.wf_cons b v n).1 hn
      have hab : a = b := by
        rcases Nat.lt_trichotomy a b with hlt | heq | hgt
        · have h1 := h a
          rw [Memory.read_below_head _ hn a (by simpa using hlt)] at h1
          simp [Memory.read] at h1
        · exact heq
        · have h1 := h b
          rw [Memory.read_below_head _ hm b (by simpa using hgt)] at h1
          simp [Memory.read] at h1
      subst hab
      have hw := h a
      simp only [Memory.read, if_true, Option.some.injEq] at hw
      subst hw
      rw [ih n hca.2 hcb.2 fun i => ?_]
      by_cases hi : i = a
      · subst hi
        rw [Memory.read_below_head m hca.2 i hca.1, Memory.read_below_head n hcb.2 i hcb.1]
      · have := h i
        simpa [Memory.read, hi] using this

theorem setOutput_obuf_read (out : List Byte) (s : State) (j : Nat) :
    (setOutput out s).obuf.read j = if j < out.length then out[j]? else s.obuf.read j := by
  simp [setOutput, Memory.read_writeBytes]

/-- The output sequence after `setOutput`, where its length fits the register OLEN. -/
theorem outputBytes_setOutput (out : List Byte) (s : State) (h : out.length < 2 ^ 32) :
    outputBytes (setOutput out s) = out := by
  have hl : (setOutput out s).olen.toNat = out.length := by
    simp only [setOutput, BitVec.toNat_ofNat]
    exact Nat.mod_eq_of_lt h
  apply List.ext_getElem
  · simp [outputBytes, hl]
  · intro i h1 h2
    simp [outputBytes, obufByte, setOutput_obuf_read, h2]

theorem length_inputBytes (s : State) : (inputBytes s).length = s.ilen.toNat := by
  simp [inputBytes]

end Sys2Proof.Machine
end

