-- ==== Sys2Proof/Laws/Bytes.lean ====
section
/-! SUPPORT. Bytes of fixed arrays, the State as a matrix, blocks of a byte sequence: each operation of Operands.lean and
Ports.lean on one byte, said once. -/

namespace Sys2Proof.Machine

theorem byteAt_eq_getElem {n : Nat} (v : Vector Byte n) (j : Nat) (hj : j < n) : byteAt v j = v[j] := by
  simp [byteAt, List.getD_eq_getElem?_getD, hj]

/-- A host write of one byte, said once for the fixed spaces. -/
theorem byteAt_setIfInBounds {n : Nat} (v : Vector Byte n) (i j : Nat) (x : Byte) (hj : j < n) :
    byteAt (v.setIfInBounds i x) j = if j = i then x else byteAt v j := by
  rw [byteAt_eq_getElem _ _ hj, byteAt_eq_getElem _ _ hj, Vector.getElem_setIfInBounds]
  by_cases h : i = j
  · simp [h]
  · simp [h, Ne.symm h]

theorem byteAt_replicate (n i : Nat) : byteAt (Vector.replicate n (0 : Byte)) i = 0 := by
  by_cases h : i < n
  · rw [byteAt_eq_getElem _ _ h]; simp
  · simp [byteAt, List.getD_eq_getElem?_getD, h]

theorem byteAt_xorBytes {n : Nat} (a b : Vector Byte n) (i : Nat) (h : i < n) :
    byteAt (xorBytes a b) i = byteAt a i ^^^ byteAt b i := by
  rw [byteAt_eq_getElem _ _ h, byteAt_eq_getElem _ _ h, byteAt_eq_getElem _ _ h]
  simp [xorBytes]

theorem xorBytes_cancel_right (a b : Block) : xorBytes (xorBytes a b) b = a := by
  apply Vector.ext
  intro i hi
  simp [xorBytes]

/-- A host write of one input byte: what every index of IBUF reads as afterwards. -/
theorem ibufByte_write (s : State) (i j : Nat) (v : Byte) :
    ibufByte { s with ibuf := s.ibuf.write i v } j = if j = i then v else ibufByte s j := by
  simp only [ibufByte, Memory.read_write]
  split <;> rfl

theorem obufByte_setOutput (out : List Byte) (s : State) (i : Nat) (hi : i < out.length) :
    obufByte (setOutput out s) i = out[i] := by
  simp only [obufByte, setOutput_obuf_read, if_pos hi]
  simp [hi]

theorem inputBytes_getElem (s : State) (i : Nat) (h : i < (inputBytes s).length) :
    (inputBytes s)[i] = ibufByte s i := by
  simp [inputBytes]

theorem inputBytes_getD (s : State) (i : Nat) (h : i < s.ilen.toNat) : (inputBytes s).getD i 0 = ibufByte s i := by
  simp [inputBytes, List.getD_eq_getElem?_getD, h]

/-! ### The State as a matrix (10_state.md R25) -/

theorem cell_eq_byteAt (s : Block) (c r : Fin 4) : cell s c r = byteAt s (4 * c.val + r.val) := by
  rw [byteAt_eq_getElem _ _ (by omega)]
  rfl

theorem byteAt_ofCells (f : Fin 4 → Fin 4 → Byte) (c r : Nat) (hc : c < 4) (hr : r < 4) :
    byteAt (ofCells f) (4 * c + r) = f ⟨c, hc⟩ ⟨r, hr⟩ := by
  rw [byteAt_eq_getElem _ _ (by omega)]
  simp only [ofCells, Vector.getElem_ofFn]
  congr 1 <;> apply Fin.ext <;> simp <;> omega

@[simp] theorem cell_ofCells (f : Fin 4 → Fin 4 → Byte) (c r : Fin 4) : cell (ofCells f) c r = f c r := by
  rw [cell_eq_byteAt, byteAt_ofCells _ _ _ c.isLt r.isLt]

/-- Two States are equal when they agree at every column and row. -/
theorem block_ext_cells (a b : Block) (h : ∀ c j, c < 4 → j < 4 → byteAt a (4 * c + j) = byteAt b (4 * c + j)) :
    a = b := by
  apply Vector.ext
  intro i hi
  have := h (i / 4) (i % 4) (by omega) (by omega)
  rw [show 4 * (i / 4) + i % 4 = i by omega, byteAt_eq_getElem _ _ hi, byteAt_eq_getElem _ _ hi] at this
  exact this

theorem ofCells_cell (s : Block) : ofCells (cell s) = s := by
  apply block_ext_cells
  intro c j hc hj
  rw [byteAt_ofCells _ _ _ hc hj, cell_eq_byteAt]

/-- A matrix row times a column, on the bytes of the column. -/
theorem rowTimesColumn_eq_bytes (row : Vector Byte 4) (s : Block) (c : Fin 4) :
    rowTimesColumn row s c =
      multiply row[0] (byteAt s (4 * c.val)) ^^^ multiply row[1] (byteAt s (4 * c.val + 1)) ^^^
        multiply row[2] (byteAt s (4 * c.val + 2)) ^^^ multiply row[3] (byteAt s (4 * c.val + 3)) := by
  simp only [rowTimesColumn, cell_eq_byteAt]
  rfl

/-! ### Blocks of a byte sequence (20_memory.md R60) -/

theorem blockAt_append_left (xs ys : List Byte) (i : Nat) (h : 16 * (i + 1) ≤ xs.length) :
    blockAt (xs ++ ys) i = blockAt xs i := by
  simp only [blockAt]
  congr 1
  funext j
  rw [List.getD_eq_getElem?_getD, List.getD_eq_getElem?_getD, List.getElem?_append_left (by omega)]

theorem blockAt_append_right (xs : List Byte) (b : Block) (i : Nat) (h : xs.length = 16 * i) :
    blockAt (xs ++ b.toList) i = b := by
  apply Vector.ext
  intro j hj
  simp [blockAt, List.getD_eq_getElem?_getD, h]

/-- Two sequences of `n` blocks are equal when their blocks are. -/
theorem bytes_ext_blocks (xs ys : List Byte) (n : Nat) (hx : xs.length = 16 * n) (hy : ys.length = 16 * n)
    (h : ∀ i, i < n → blockAt xs i = blockAt ys i) : xs = ys := by
  apply List.ext_getElem (by omega)
  intro i h1 h2
  have := h (i / 16) (by omega)
  have := congrArg (fun b : Block => b[i % 16]'(by omega)) this
  simpa [blockAt, List.getD_eq_getElem?_getD, show 16 * (i / 16) + i % 16 = i by omega, h1, h2] using this

end Sys2Proof.Machine
end

