-- ==== Sys2Proof/Laws/Padding.lean ====
section
/-! SUPPORT. The padder's length and everything the stripper can answer (46_padding.md R201, R203). -/

namespace Sys2Proof.Machine

theorem length_padInput (buf : List Byte) : (padInput buf).length = 16 * (buf.length / 16 + 1) := by
  simp [padInput, padLength]
  omega

theorem stripOutput_nil : stripOutput [] = .error ⟨.emptyBuffer, 0⟩ := by decide

/-- What a successful stripping says of its input and its output's length. -/
theorem stripOutput_ok (buf out : List Byte) (h : stripOutput buf = .ok out) :
    out.length ≤ buf.length ∧ buf.length % 16 = 0 ∧ buf ≠ [] := by
  simp only [stripOutput] at h
  repeat' split at h
  all_goals cases h
  rename_i h1 h2 h3 h4
  refine ⟨by simp, by omega, by rintro rfl; simp at h2⟩

/-- The stripper on one or more whole blocks, byte by byte: `l` is the last byte. -/
theorem stripOutput_blocks (buf : List Byte) (h1 : buf.length % 16 = 0) (h2 : buf.length ≠ 0) (l : Byte)
    (hl : buf.getD (buf.length - 1) 0 = l) :
    stripOutput buf =
      if l.toNat = 0 ∨ 16 < l.toNat then .error ⟨.invalidPaddingSize, l.zeroExtend 32⟩
      else if ∀ j, buf.length - l.toNat ≤ j → j < buf.length → buf.getD j 0 = l then
        .ok (buf.take (buf.length - l.toNat))
      else .error ⟨.invalidPaddingBytes, l.zeroExtend 32⟩ := by
  simp only [stripOutput, hl]
  rw [if_neg (by omega), if_neg h2]
  have hz : l = 0 ↔ l.toNat = 0 :=
    ⟨fun h => by rw [h]; rfl, fun h => BitVec.eq_of_toNat_eq (by simpa using h)⟩
  simp only [hz]
  split
  · rfl
  · have hany : ((buf.drop (buf.length - l.toNat)).any (· != l)) = true ↔
        ¬ ∀ j, buf.length - l.toNat ≤ j → j < buf.length → buf.getD j 0 = l := by
      rw [List.any_eq_true]
      constructor
      · rintro ⟨x, hx, hne⟩ hall
        obtain ⟨j, hj, rfl⟩ := List.mem_iff_getElem.1 hx
        simp only [List.length_drop] at hj
        have := hall (buf.length - l.toNat + j) (by omega) (by omega)
        rw [List.getElem_drop] at hne
        simp [List.getD_eq_getElem?_getD, show buf.length - l.toNat + j < buf.length by omega] at this
        simp [this] at hne
      · intro h
        simp only [not_forall] at h
        obtain ⟨j, hj1, hj2, hne⟩ := h
        refine ⟨buf.getD j 0, ?_, by simpa using hne⟩
        rw [List.mem_iff_getElem]
        refine ⟨j - (buf.length - l.toNat), by simp; omega, ?_⟩
        rw [List.getElem_drop]
        simp [List.getD_eq_getElem?_getD, hj2,
          show buf.length - l.toNat + (j - (buf.length - l.toNat)) = j by omega]
    by_cases hh : ∀ j, buf.length - l.toNat ≤ j → j < buf.length → buf.getD j 0 = l
    · rw [if_pos hh, if_neg (by rw [hany]; exact fun h => h hh)]
    · rw [if_neg hh, if_pos (hany.2 hh)]

/-- The last byte of a buffer is no padding length (60_exceptions.md R226). -/
def BadPaddingSize (buf : List Byte) (l : Byte) : Prop :=
  buf.length % 16 = 0 ∧ buf.length ≠ 0 ∧ buf.getD (buf.length - 1) 0 = l ∧ (l.toNat = 0 ∨ 16 < l.toNat)

/-- The last byte of a buffer is a padding length, and one of that many last bytes differs from it (R228). -/
def BadPaddingBytes (buf : List Byte) (l : Byte) : Prop :=
  buf.length % 16 = 0 ∧ buf.length ≠ 0 ∧ buf.getD (buf.length - 1) 0 = l ∧ l.toNat ≠ 0 ∧ l.toNat ≤ 16 ∧
    ∃ j, buf.length - l.toNat ≤ j ∧ j < buf.length ∧ buf.getD j 0 ≠ l

/-- Everything the stripper can fail with, and when. -/
theorem stripOutput_error (buf : List Byte) (f : Failure) (h : stripOutput buf = .error f) :
    (f = ⟨.invalidSize, BitVec.ofNat 32 buf.length⟩ ∧ buf.length % 16 ≠ 0) ∨
    (f = ⟨.emptyBuffer, 0⟩ ∧ buf.length = 0) ∨
    (∃ l : Byte, f = ⟨.invalidPaddingSize, l.zeroExtend 32⟩ ∧ BadPaddingSize buf l) ∨
    (∃ l : Byte, f = ⟨.invalidPaddingBytes, l.zeroExtend 32⟩ ∧ BadPaddingBytes buf l) := by
  by_cases h1 : buf.length % 16 = 0
  · by_cases h2 : buf.length = 0
    · simp only [stripOutput, h2] at h
      cases h
      exact .inr (.inl ⟨rfl, h2⟩)
    · rw [stripOutput_blocks buf h1 h2 _ rfl] at h
      split at h
      · cases h
        exact .inr (.inr (.inl ⟨_, rfl, h1, h2, rfl, ‹_›⟩))
      · split at h
        · cases h
        · rename_i hl hj
          cases h
          simp only [not_forall] at hj
          obtain ⟨j, hj1, hj2, hj3⟩ := hj
          exact .inr (.inr (.inr ⟨_, rfl, h1, h2, rfl, by omega, by omega, j, hj1, hj2, hj3⟩))
  · simp only [stripOutput] at h
    rw [if_pos h1] at h
    cases h
    exact .inl ⟨rfl, h1⟩

end Sys2Proof.Machine
end

