-- ==== Sys2Proof/Laws/Schedule.lean ====
section
/-! SUPPORT. The expansion loop of 42_key_schedule.md R133 word by word, the schedule store after KEXP, and that the cipher
reads only the words its rounds use. -/

namespace Sys2Proof.Machine

theorem wordAt_append_left (ws vs : List Word) (i : Nat) (h : i < ws.length) :
    wordAt (ws ++ vs) i = wordAt ws i := by
  simp [wordAt, List.getD_eq_getElem?_getD, List.getElem?_append_left h]

theorem length_expandStep (n : Nat) (ws : List Word) : (expandStep n ws).length = ws.length + 1 := by
  simp [expandStep]

theorem length_expandLoop (n k : Nat) (ws : List Word) : (expandLoop n k ws).length = ws.length + k := by
  induction k generalizing ws with
  | zero => rfl
  | succ k ih => simp [expandLoop, ih, length_expandStep]; omega

/-- The loop keeps the words it starts from. -/
theorem expandLoop_below (n k : Nat) (ws : List Word) (i : Nat) (h : i < ws.length) :
    wordAt (expandLoop n k ws) i = wordAt ws i := by
  induction k generalizing ws with
  | zero => rfl
  | succ k ih => rw [expandLoop, ih _ (by rw [length_expandStep]; omega), expandStep, wordAt_append_left _ _ _ h]

/-- Every word the loop adds is the XOR of the word `n` before it and the loop's `temp`. -/
theorem expandLoop_added (n k : Nat) (hn : 0 < n) (ws : List Word) (hws : n ≤ ws.length) (i : Nat)
    (h1 : ws.length ≤ i) (h2 : i < ws.length + k) :
    wordAt (expandLoop n k ws) i =
      xorBytes (wordAt (expandLoop n k ws) (i - n)) (scheduleTemp n i (wordAt (expandLoop n k ws) (i - 1))) := by
  induction k generalizing ws with
  | zero => omega
  | succ k ih =>
    rw [expandLoop]
    by_cases h : i = ws.length
    · subst h
      rw [expandLoop_below, expandLoop_below, expandLoop_below]
      · rw [expandStep, wordAt_append_left _ _ (ws.length - n) (by omega),
          wordAt_append_left _ _ (ws.length - 1) (by omega)]
        simp [wordAt]
      all_goals rw [length_expandStep]; omega
    · exact ih _ (by rw [length_expandStep]; omega) (by rw [length_expandStep]; omega)
        (by rw [length_expandStep]; omega)

theorem length_keyWords (key : List Byte) (n : Nat) : (keyWords key n).length = n := by
  simp [keyWords]

/-- The store after KEXP, said once: every word. -/
theorem scheduleWord_writeSchedule (ws : List Word) (ks : Vector Word 60) (w : Nat) (h : w < 60) :
    scheduleWord (writeSchedule ws ks) w = if w < ws.length then wordAt ws w else scheduleWord ks w := by
  have e : ∀ v : Vector Word 60, scheduleWord v w = v[w] := by
    intro v
    simp [scheduleWord, wordAt, List.getD_eq_getElem?_getD, h]
  rw [e, e]
  simp [writeSchedule]

theorem length_keyBytes (s : State) (h : s.keyLen = 16 ∨ s.keyLen = 24 ∨ s.keyLen = 32) :
    (keyBytes s).length = s.keyLen.toNat := by
  rcases h with h | h | h <;> simp [keyBytes, h]

/-- Round key `r`, byte by byte (R136). -/
theorem byteAt_roundKey (k : Schedule) (r c j : Nat) (hc : c < 4) (hj : j < 4) :
    byteAt (roundKey k r) (4 * c + j) = byteAt (scheduleWord k.words (4 * r + c)) j := by
  rw [roundKey, byteAt_ofCells _ _ _ hc hj, byteAt_eq_getElem _ _ hj]

theorem roundKey_congr (k k' : Schedule) (r : Nat)
    (h : ∀ w, w < 4 * (r + 1) → scheduleWord k.words w = scheduleWord k'.words w) : roundKey k r = roundKey k' r := by
  simp only [roundKey]
  congr 1
  funext c j
  rw [h _ (by omega)]

theorem encryptRounds_congr (k k' : Schedule) (n : Nat) (s : Block)
    (h : ∀ r, r ≤ n → roundKey k r = roundKey k' r) : encryptRounds k n s = encryptRounds k' n s := by
  induction n with
  | zero => rfl
  | succ n ih =>
    rw [encryptRounds, encryptRounds, ih fun r hr => h r (by omega), encryptRound, encryptRound,
      h _ (Nat.le_refl _)]

theorem decryptRounds_congr (k k' : Schedule) (n : Nat) (s : Block)
    (h : ∀ r, r ≤ n → roundKey k r = roundKey k' r) : decryptRounds k n s = decryptRounds k' n s := by
  induction n generalizing s with
  | zero => rfl
  | succ n ih =>
    rw [decryptRounds, decryptRounds, ih _ fun r hr => h r (by omega), decryptRound, decryptRound,
      h _ (Nat.le_refl _)]

/-- Encryption depends on the schedule's words below `4 × (rounds + 1)` only. -/
theorem encrypt_congr (k k' : Schedule) (s : Block) (hr : k.rounds = k'.rounds)
    (h : ∀ w, w < 4 * (k.rounds + 1) → scheduleWord k.words w = scheduleWord k'.words w) :
    encrypt k s = encrypt k' s := by
  have hh : ∀ r, r ≤ k.rounds → roundKey k r = roundKey k' r := fun r hr =>
    roundKey_congr k k' r fun w hw => h w (by omega)
  simp only [encrypt]
  rw [hh 0 (by omega), hh k.rounds (by omega), encryptRounds_congr k k' _ _ fun r hr => hh r (by omega), hr]

/-- Decryption depends on the schedule's words below `4 × (rounds + 1)` only. -/
theorem decrypt_congr (k k' : Schedule) (s : Block) (hr : k.rounds = k'.rounds)
    (h : ∀ w, w < 4 * (k.rounds + 1) → scheduleWord k.words w = scheduleWord k'.words w) :
    decrypt k s = decrypt k' s := by
  have hh : ∀ r, r ≤ k.rounds → roundKey k r = roundKey k' r := fun r hr =>
    roundKey_congr k k' r fun w hw => h w (by omega)
  simp only [decrypt]
  rw [hh 0 (by omega), hh k.rounds (by omega), decryptRounds_congr k k' _ _ fun r hr => hh r (by omega), hr]

end Sys2Proof.Machine
end

