-- ==== Sys2Proof/Laws/Cbc.lean ====
section
/-! SUPPORT. The block loops of the CBC commands are the functions of 45_cbc.md R180 and R183 on the registers, said once for
each loop. -/

namespace Sys2Proof.Machine

theorem Memory.writeBytes_append (xs ys : List Byte) (m : Memory) (i : Nat) :
    Memory.writeBytes (Memory.writeBytes m i xs) (i + xs.length) ys = Memory.writeBytes m i (xs ++ ys) := by
  induction xs generalizing m i with
  | nil => rfl
  | cons x xs ih =>
    simp only [Memory.writeBytes, List.cons_append, List.length_cons]
    rw [show i + (xs.length + 1) = i + 1 + xs.length by omega, ih]

theorem length_cbcEncryptBlocks (k : Schedule) (iv : Block) (buf : List Byte) (n : Nat) :
    (cbcEncryptBlocks k iv buf n).2.length = 16 * n := by
  induction n with
  | zero => rfl
  | succ n ih => simp [cbcEncryptBlocks, ih]; omega

theorem length_cbcDecryptBlocks (k : Schedule) (iv : Block) (buf : List Byte) (n : Nat) :
    (cbcDecryptBlocks k iv buf n).2.length = 16 * n := by
  induction n with
  | zero => rfl
  | succ n ih => simp [cbcDecryptBlocks, ih]; omega

theorem length_cbcEncrypt (k : Schedule) (iv : Block) (plaintext : List Byte) :
    (cbcEncrypt k iv plaintext).length = 16 * (plaintext.length / 16 + 1) := by
  have := length_padInput plaintext
  simp only [cbcEncrypt, length_cbcEncryptBlocks]
  omega

/-- The chain value after `n` blocks of encryption: the last ciphertext block, or the IV. -/
theorem cbcEncryptBlocks_chain (k : Schedule) (iv : Block) (buf : List Byte) (n : Nat) :
    (cbcEncryptBlocks k iv buf n).1 = if n = 0 then iv else blockAt (cbcEncryptBlocks k iv buf n).2 (n - 1) := by
  cases n with
  | zero => rfl
  | succ n => simp [cbcEncryptBlocks, blockAt_append_right _ _ _ (length_cbcEncryptBlocks k iv buf n)]

/-- The chain value after `n` blocks of decryption: the last ciphertext block taken, or the IV. -/
theorem cbcDecryptBlocks_chain (k : Schedule) (iv : Block) (buf : List Byte) (n : Nat) :
    (cbcDecryptBlocks k iv buf n).1 = if n = 0 then iv else blockAt buf (n - 1) := by
  cases n <;> simp [cbcDecryptBlocks]

/-- CBCENC's loop, said once: every register after `n` passes. -/
theorem cbcencLoop_eq (buf : List Byte) (n : Nat) (s : State) :
    cbcencLoop buf n s = { s with
      st := if n = 0 then s.st else (cbcEncryptBlocks (schedule s) s.chain buf n).1
      obuf := s.obuf.writeBytes 0 (cbcEncryptBlocks (schedule s) s.chain buf n).2
      chain := (cbcEncryptBlocks (schedule s) s.chain buf n).1
      blk := if n = 0 then s.blk else BitVec.ofNat 32 n } := by
  obtain ⟨k, hk⟩ : ∃ k, schedule s = k := ⟨_, rfl⟩
  rw [hk]
  induction n with
  | zero => simp [cbcencLoop, cbcEncryptBlocks, Memory.writeBytes]
  | succ n ih =>
    have h0 := fun ys => Memory.writeBytes_append (cbcEncryptBlocks k s.chain buf n).2 ys s.obuf 0
    simp only [length_cbcEncryptBlocks, Nat.zero_add] at h0
    rw [cbcencLoop, ih]
    simp only [schedule] at hk
    simp [cbcencBlock, cbcEncryptBlocks, schedule, hk, h0]

/-- CBCDEC's loop, said once: every register and the plaintext after `n` passes. -/
theorem cbcdecLoop_eq (buf : List Byte) (n : Nat) (s : State) :
    cbcdecLoop buf n s =
      ({ s with
        st := if n = 0 then s.st else decrypt (schedule s) (blockAt buf (n - 1))
        chain := (cbcDecryptBlocks (schedule s) s.chain buf n).1
        blk := if n = 0 then s.blk else BitVec.ofNat 32 n },
      (cbcDecryptBlocks (schedule s) s.chain buf n).2) := by
  induction n with
  | zero => simp [cbcdecLoop, cbcDecryptBlocks]
  | succ n ih =>
    rw [cbcdecLoop, ih]
    simp [cbcdecBlock, cbcDecryptBlocks, schedule]

/-- Everything R183 can fail with, and when: the padding failures are of the decrypted blocks. -/
theorem cbcDecrypt_error (k : Schedule) (iv : Block) (c : List Byte) (f : Failure) (h : cbcDecrypt k iv c = .error f) :
    (f = ⟨.invalidCipherText, BitVec.ofNat 32 c.length⟩ ∧ c.length % 16 ≠ 0) ∨
    (f = ⟨.emptyBuffer, 0⟩ ∧ c.length = 0) ∨
    (∃ l : Byte, f = ⟨.invalidPaddingSize, l.zeroExtend 32⟩ ∧
      BadPaddingSize (cbcDecryptBlocks k iv c (c.length / 16)).2 l) ∨
    (∃ l : Byte, f = ⟨.invalidPaddingBytes, l.zeroExtend 32⟩ ∧
      BadPaddingBytes (cbcDecryptBlocks k iv c (c.length / 16)).2 l) := by
  simp only [cbcDecrypt] at h
  split at h
  · cases h; exact .inl ⟨rfl, ‹_›⟩
  · rcases stripOutput_error _ _ h with ⟨rfl, h1⟩ | ⟨rfl, h1⟩ | h1 | h1
    · rw [length_cbcDecryptBlocks] at h1; omega
    · rw [length_cbcDecryptBlocks] at h1; exact .inr (.inl ⟨rfl, by omega⟩)
    · exact .inr (.inr (.inl h1))
    · exact .inr (.inr (.inr h1))

/-- What R183's success says of the lengths: at least one whole block, and no output longer than the input. -/
theorem cbcDecrypt_ok (k : Schedule) (iv : Block) (c out : List Byte) (h : cbcDecrypt k iv c = .ok out) :
    out.length ≤ c.length ∧ c.length % 16 = 0 ∧ c.length / 16 ≠ 0 := by
  simp only [cbcDecrypt] at h
  split at h
  · cases h
  · have := (stripOutput_ok _ _ h).1
    rw [length_cbcDecryptBlocks] at this
    refine ⟨by omega, by omega, fun h0 => ?_⟩
    rw [h0] at h
    simp [cbcDecryptBlocks, stripOutput_nil] at h

end Sys2Proof.Machine
end

