-- ==== Sys2Proof/Laws/Decode.lean ====
section
/-! SUPPORT. The command word and its four fields, and everything a successful decoding says. -/

namespace Sys2Proof

/-- The fields of an encoded command (30_encoding.md R90). -/
theorem fields_encode (i : Instr) :
    rsvField (encode i) = 0 ∧ opField (encode i) = i.mnemonic.opcode ∧ aField (encode i) = i.fieldA ∧
      bField (encode i) = i.fieldB := by
  refine ⟨?_, ?_, ?_, ?_⟩ <;> simp only [rsvField, opField, aField, bField, encode] <;>
  · apply BitVec.eq_of_getLsbD_eq
    intro k hk
    simp only [BitVec.getLsbD_extractLsb', BitVec.getLsbD_append, hk, decide_true, Bool.true_and]
    simp [hk, show ¬ (8 + k < 8) by omega, show ¬ (16 + k < 8) by omega, show ¬ (24 + k < 8) by omega,
      show 16 + k - 8 = 8 + k by omega, show 24 + k - 8 = 16 + k by omega]

/-- A word is the concatenation of its fields. -/
theorem word_eq_fields (cw : Reg32) : rsvField cw ++ bField cw ++ aField cw ++ opField cw = cw := by
  simp only [rsvField, opField, aField, bField]
  apply BitVec.eq_of_getLsbD_eq
  intro k hk
  simp only [BitVec.getLsbD_append, BitVec.getLsbD_extractLsb']
  by_cases h1 : k < 8
  · simp [h1]
  · by_cases h2 : k - 8 < 8
    · simp [h1, h2, show 8 + (k - 8) = k by omega]
    · by_cases h3 : k - 8 - 8 < 8
      · simp [h1, h2, h3, show 16 + (k - 8 - 8) = k by omega]
      · simp [h1, h2, h3, show 24 + (k - 8 - 8 - 8) = k by omega, show k - 8 - 8 - 8 < 8 by omega]

theorem mnemonicOfOpcode_opcode (m : Mnemonic) : mnemonicOfOpcode m.opcode = some m := by
  cases m <;> rfl

theorem opcode_of_mnemonicOfOpcode {op : Byte} {m : Mnemonic} (h : mnemonicOfOpcode op = some m) : m.opcode = op := by
  simpa using List.find?_some h

/-- Decoding, inverted: what a word that decodes to `i` has in its fields, and which command `i` is. -/
theorem fields_of_decode {cw : Reg32} {i : Instr} (h : decode cw = .ok i) :
    rsvField cw = 0 ∧ opField cw = i.mnemonic.opcode ∧
      i.mnemonic.format.unusedZero (aField cw) (bField cw) = true ∧
      i = i.mnemonic.command (aField cw) (bField cw) := by
  simp only [decode] at h
  split at h
  · cases h
  · rename_i h0
    split at h
    · cases h
    · rename_i m hm
      split at h
      · rename_i hu
        injection h with h
        have hmm : i.mnemonic = m := by subst h; cases m <;> rfl
        rw [hmm]
        exact ⟨by simpa using h0, (opcode_of_mnemonicOfOpcode hm).symm, hu, h.symm⟩
      · cases h

end Sys2Proof
end

