-- ==== Sys2Proof/Laws/State.lean ====
section
/-! SUPPORT. One equation per field for each operation on the state, so that no later proof unfolds a record update; simp
splits each conjunction into its equations. -/

namespace Sys2Proof.Machine

/-- Success writes ERR and ERRINFO (R241). -/
@[simp] theorem succeed_fields (s : State) :
    (succeed s).key = s.key ∧ (succeed s).keyLen = s.keyLen ∧
      (succeed s).ks = s.ks ∧ (succeed s).nk = s.nk ∧
      (succeed s).nr = s.nr ∧ (succeed s).kvalid = s.kvalid ∧
      (succeed s).st = s.st ∧ (succeed s).iv = s.iv ∧
      (succeed s).chain = s.chain ∧ (succeed s).ibuf = s.ibuf ∧
      (succeed s).ilen = s.ilen ∧ (succeed s).obuf = s.obuf ∧
      (succeed s).olen = s.olen ∧ (succeed s).res = s.res ∧
      (succeed s).phase = s.phase ∧ (succeed s).blk = s.blk ∧
      (succeed s).err = 0 ∧ (succeed s).errInfo = 0 ∧
      (succeed s).cfg = s.cfg ∧ (succeed s).draws = s.draws ∧
      (succeed s).resets = s.resets ∧ (succeed s).inputs = s.inputs ∧
      (succeed s).responses = s.responses :=
  ⟨rfl, rfl, rfl, rfl, rfl, rfl, rfl, rfl, rfl, rfl, rfl, rfl, rfl, rfl, rfl, rfl, rfl, rfl, rfl, rfl, rfl, rfl, rfl⟩

/-- An abort that writes ERR and ERRINFO only (R240). -/
@[simp] theorem raise_errorOnly_fields (f : Failure) (s : State) :
    (raise .errorOnly f s).key = s.key ∧ (raise .errorOnly f s).keyLen = s.keyLen ∧
      (raise .errorOnly f s).ks = s.ks ∧ (raise .errorOnly f s).nk = s.nk ∧
      (raise .errorOnly f s).nr = s.nr ∧ (raise .errorOnly f s).kvalid = s.kvalid ∧
      (raise .errorOnly f s).st = s.st ∧ (raise .errorOnly f s).iv = s.iv ∧
      (raise .errorOnly f s).chain = s.chain ∧ (raise .errorOnly f s).ibuf = s.ibuf ∧
      (raise .errorOnly f s).ilen = s.ilen ∧ (raise .errorOnly f s).obuf = s.obuf ∧
      (raise .errorOnly f s).olen = s.olen ∧ (raise .errorOnly f s).res = s.res ∧
      (raise .errorOnly f s).phase = s.phase ∧ (raise .errorOnly f s).blk = s.blk ∧
      (raise .errorOnly f s).err = f.kind.code ∧ (raise .errorOnly f s).errInfo = f.info ∧
      (raise .errorOnly f s).cfg = s.cfg ∧ (raise .errorOnly f s).draws = s.draws ∧
      (raise .errorOnly f s).resets = s.resets ∧ (raise .errorOnly f s).inputs = s.inputs ∧
      (raise .errorOnly f s).responses = s.responses :=
  ⟨rfl, rfl, rfl, rfl, rfl, rfl, rfl, rfl, rfl, rfl, rfl, rfl, rfl, rfl, rfl, rfl, rfl, rfl, rfl, rfl, rfl, rfl, rfl⟩

/-- The abort of PAD and STRIP (R240). -/
@[simp] theorem raise_output_fields (f : Failure) (s : State) :
    (raise .output f s).key = s.key ∧ (raise .output f s).keyLen = s.keyLen ∧
      (raise .output f s).ks = s.ks ∧ (raise .output f s).nk = s.nk ∧
      (raise .output f s).nr = s.nr ∧ (raise .output f s).kvalid = s.kvalid ∧
      (raise .output f s).st = s.st ∧ (raise .output f s).iv = s.iv ∧
      (raise .output f s).chain = s.chain ∧ (raise .output f s).ibuf = s.ibuf ∧
      (raise .output f s).ilen = s.ilen ∧ (raise .output f s).obuf = s.obuf ∧
      (raise .output f s).olen = 0 ∧ (raise .output f s).res = s.res ∧
      (raise .output f s).phase = s.phase ∧ (raise .output f s).blk = s.blk ∧
      (raise .output f s).err = f.kind.code ∧ (raise .output f s).errInfo = f.info ∧
      (raise .output f s).cfg = s.cfg ∧ (raise .output f s).draws = s.draws ∧
      (raise .output f s).resets = s.resets ∧ (raise .output f s).inputs = s.inputs ∧
      (raise .output f s).responses = s.responses :=
  ⟨rfl, rfl, rfl, rfl, rfl, rfl, rfl, rfl, rfl, rfl, rfl, rfl, rfl, rfl, rfl, rfl, rfl, rfl, rfl, rfl, rfl, rfl, rfl⟩

/-- The abort of CBCENC and CBCDEC (R240). -/
@[simp] theorem raise_chaining_fields (f : Failure) (s : State) :
    (raise .chaining f s).key = s.key ∧ (raise .chaining f s).keyLen = s.keyLen ∧
      (raise .chaining f s).ks = s.ks ∧ (raise .chaining f s).nk = s.nk ∧
      (raise .chaining f s).nr = s.nr ∧ (raise .chaining f s).kvalid = s.kvalid ∧
      (raise .chaining f s).st = zeroBlock ∧ (raise .chaining f s).iv = s.iv ∧
      (raise .chaining f s).chain = zeroBlock ∧ (raise .chaining f s).ibuf = s.ibuf ∧
      (raise .chaining f s).ilen = s.ilen ∧ (raise .chaining f s).obuf = s.obuf ∧
      (raise .chaining f s).olen = 0 ∧ (raise .chaining f s).res = s.res ∧
      (raise .chaining f s).phase = .init ∧ (raise .chaining f s).blk = 0 ∧
      (raise .chaining f s).err = f.kind.code ∧ (raise .chaining f s).errInfo = f.info ∧
      (raise .chaining f s).cfg = s.cfg ∧ (raise .chaining f s).draws = s.draws ∧
      (raise .chaining f s).resets = s.resets ∧ (raise .chaining f s).inputs = s.inputs ∧
      (raise .chaining f s).responses = s.responses :=
  ⟨rfl, rfl, rfl, rfl, rfl, rfl, rfl, rfl, rfl, rfl, rfl, rfl, rfl, rfl, rfl, rfl, rfl, rfl, rfl, rfl, rfl, rfl, rfl⟩

/-- What every abort leaves, and what every abort writes (R240). -/
@[simp] theorem raise_fields (c : AbortScope) (f : Failure) (s : State) :
    (raise c f s).key = s.key ∧ (raise c f s).keyLen = s.keyLen ∧
      (raise c f s).ks = s.ks ∧ (raise c f s).nk = s.nk ∧
      (raise c f s).nr = s.nr ∧ (raise c f s).kvalid = s.kvalid ∧
      (raise c f s).iv = s.iv ∧ (raise c f s).ibuf = s.ibuf ∧
      (raise c f s).ilen = s.ilen ∧ (raise c f s).obuf = s.obuf ∧
      (raise c f s).res = s.res ∧ (raise c f s).err = f.kind.code ∧
      (raise c f s).errInfo = f.info ∧ (raise c f s).cfg = s.cfg ∧
      (raise c f s).draws = s.draws ∧ (raise c f s).resets = s.resets ∧
      (raise c f s).inputs = s.inputs ∧ (raise c f s).responses = s.responses := by
  cases c <;> simp

/-- Writing an output sequence (R71). -/
@[simp] theorem setOutput_fields (out : List Byte) (s : State) :
    (setOutput out s).key = s.key ∧ (setOutput out s).keyLen = s.keyLen ∧
      (setOutput out s).ks = s.ks ∧ (setOutput out s).nk = s.nk ∧
      (setOutput out s).nr = s.nr ∧ (setOutput out s).kvalid = s.kvalid ∧
      (setOutput out s).st = s.st ∧ (setOutput out s).iv = s.iv ∧
      (setOutput out s).chain = s.chain ∧ (setOutput out s).ibuf = s.ibuf ∧
      (setOutput out s).ilen = s.ilen ∧ (setOutput out s).obuf = s.obuf.writeBytes 0 out ∧
      (setOutput out s).olen = BitVec.ofNat 32 out.length ∧ (setOutput out s).res = s.res ∧
      (setOutput out s).phase = s.phase ∧ (setOutput out s).blk = s.blk ∧
      (setOutput out s).err = s.err ∧ (setOutput out s).errInfo = s.errInfo ∧
      (setOutput out s).cfg = s.cfg ∧ (setOutput out s).draws = s.draws ∧
      (setOutput out s).resets = s.resets ∧ (setOutput out s).inputs = s.inputs ∧
      (setOutput out s).responses = s.responses :=
  ⟨rfl, rfl, rfl, rfl, rfl, rfl, rfl, rfl, rfl, rfl, rfl, rfl, rfl, rfl, rfl, rfl, rfl, rfl, rfl, rfl, rfl, rfl, rfl⟩

/-- Recording an answer. -/
@[simp] theorem respond_fields (r : Response) (s : State) :
    (respond r s).key = s.key ∧ (respond r s).keyLen = s.keyLen ∧
      (respond r s).ks = s.ks ∧ (respond r s).nk = s.nk ∧
      (respond r s).nr = s.nr ∧ (respond r s).kvalid = s.kvalid ∧
      (respond r s).st = s.st ∧ (respond r s).iv = s.iv ∧
      (respond r s).chain = s.chain ∧ (respond r s).ibuf = s.ibuf ∧
      (respond r s).ilen = s.ilen ∧ (respond r s).obuf = s.obuf ∧
      (respond r s).olen = s.olen ∧ (respond r s).res = s.res ∧
      (respond r s).phase = s.phase ∧ (respond r s).blk = s.blk ∧
      (respond r s).err = s.err ∧ (respond r s).errInfo = s.errInfo ∧
      (respond r s).cfg = s.cfg ∧ (respond r s).draws = s.draws ∧
      (respond r s).resets = s.resets ∧ (respond r s).inputs = s.inputs ∧
      (respond r s).responses = s.responses ++ [r] :=
  ⟨rfl, rfl, rfl, rfl, rfl, rfl, rfl, rfl, rfl, rfl, rfl, rfl, rfl, rfl, rfl, rfl, rfl, rfl, rfl, rfl, rfl, rfl, rfl⟩

/-- Taking the oldest event. -/
@[simp] theorem takeEvent_fields (s : State) :
    (takeEvent s).key = s.key ∧ (takeEvent s).keyLen = s.keyLen ∧
      (takeEvent s).ks = s.ks ∧ (takeEvent s).nk = s.nk ∧
      (takeEvent s).nr = s.nr ∧ (takeEvent s).kvalid = s.kvalid ∧
      (takeEvent s).st = s.st ∧ (takeEvent s).iv = s.iv ∧
      (takeEvent s).chain = s.chain ∧ (takeEvent s).ibuf = s.ibuf ∧
      (takeEvent s).ilen = s.ilen ∧ (takeEvent s).obuf = s.obuf ∧
      (takeEvent s).olen = s.olen ∧ (takeEvent s).res = s.res ∧
      (takeEvent s).phase = s.phase ∧ (takeEvent s).blk = s.blk ∧
      (takeEvent s).err = s.err ∧ (takeEvent s).errInfo = s.errInfo ∧
      (takeEvent s).cfg = s.cfg ∧ (takeEvent s).draws = s.draws ∧
      (takeEvent s).resets = s.resets ∧ (takeEvent s).inputs = s.inputs.tail ∧
      (takeEvent s).responses = s.responses :=
  ⟨rfl, rfl, rfl, rfl, rfl, rfl, rfl, rfl, rfl, rfl, rfl, rfl, rfl, rfl, rfl, rfl, rfl, rfl, rfl, rfl, rfl, rfl, rfl⟩

/-- Placing a command word. -/
@[simp] theorem pushCommand_fields (cw : Reg32) (s : State) :
    (pushCommand cw s).key = s.key ∧ (pushCommand cw s).keyLen = s.keyLen ∧
      (pushCommand cw s).ks = s.ks ∧ (pushCommand cw s).nk = s.nk ∧
      (pushCommand cw s).nr = s.nr ∧ (pushCommand cw s).kvalid = s.kvalid ∧
      (pushCommand cw s).st = s.st ∧ (pushCommand cw s).iv = s.iv ∧
      (pushCommand cw s).chain = s.chain ∧ (pushCommand cw s).ibuf = s.ibuf ∧
      (pushCommand cw s).ilen = s.ilen ∧ (pushCommand cw s).obuf = s.obuf ∧
      (pushCommand cw s).olen = s.olen ∧ (pushCommand cw s).res = s.res ∧
      (pushCommand cw s).phase = s.phase ∧ (pushCommand cw s).blk = s.blk ∧
      (pushCommand cw s).err = s.err ∧ (pushCommand cw s).errInfo = s.errInfo ∧
      (pushCommand cw s).cfg = s.cfg ∧ (pushCommand cw s).draws = s.draws ∧
      (pushCommand cw s).resets = s.resets ∧ (pushCommand cw s).inputs = .issue cw :: s.inputs ∧
      (pushCommand cw s).responses = s.responses :=
  ⟨rfl, rfl, rfl, rfl, rfl, rfl, rfl, rfl, rfl, rfl, rfl, rfl, rfl, rfl, rfl, rfl, rfl, rfl, rfl, rfl, rfl, rfl, rfl⟩

/-- R185, first row. -/
@[simp] theorem cbcInit_fields (s : State) :
    (cbcInit s).key = s.key ∧ (cbcInit s).keyLen = s.keyLen ∧
      (cbcInit s).ks = s.ks ∧ (cbcInit s).nk = s.nk ∧
      (cbcInit s).nr = s.nr ∧ (cbcInit s).kvalid = s.kvalid ∧
      (cbcInit s).st = s.st ∧ (cbcInit s).iv = s.iv ∧
      (cbcInit s).chain = s.chain ∧ (cbcInit s).ibuf = s.ibuf ∧
      (cbcInit s).ilen = s.ilen ∧ (cbcInit s).obuf = s.obuf ∧
      (cbcInit s).olen = 0 ∧ (cbcInit s).res = s.res ∧
      (cbcInit s).phase = .init ∧ (cbcInit s).blk = 0 ∧
      (cbcInit s).err = s.err ∧ (cbcInit s).errInfo = s.errInfo ∧
      (cbcInit s).cfg = s.cfg ∧ (cbcInit s).draws = s.draws ∧
      (cbcInit s).resets = s.resets ∧ (cbcInit s).inputs = s.inputs ∧
      (cbcInit s).responses = s.responses :=
  ⟨rfl, rfl, rfl, rfl, rfl, rfl, rfl, rfl, rfl, rfl, rfl, rfl, rfl, rfl, rfl, rfl, rfl, rfl, rfl, rfl, rfl, rfl, rfl⟩

/-- R185, second row. -/
@[simp] theorem cbcStart_fields (s : State) :
    (cbcStart s).key = s.key ∧ (cbcStart s).keyLen = s.keyLen ∧
      (cbcStart s).ks = s.ks ∧ (cbcStart s).nk = s.nk ∧
      (cbcStart s).nr = s.nr ∧ (cbcStart s).kvalid = s.kvalid ∧
      (cbcStart s).st = s.st ∧ (cbcStart s).iv = s.iv ∧
      (cbcStart s).chain = s.iv ∧ (cbcStart s).ibuf = s.ibuf ∧
      (cbcStart s).ilen = s.ilen ∧ (cbcStart s).obuf = s.obuf ∧
      (cbcStart s).olen = s.olen ∧ (cbcStart s).res = s.res ∧
      (cbcStart s).phase = .chaining ∧ (cbcStart s).blk = s.blk ∧
      (cbcStart s).err = s.err ∧ (cbcStart s).errInfo = s.errInfo ∧
      (cbcStart s).cfg = s.cfg ∧ (cbcStart s).draws = s.draws ∧
      (cbcStart s).resets = s.resets ∧ (cbcStart s).inputs = s.inputs ∧
      (cbcStart s).responses = s.responses :=
  ⟨rfl, rfl, rfl, rfl, rfl, rfl, rfl, rfl, rfl, rfl, rfl, rfl, rfl, rfl, rfl, rfl, rfl, rfl, rfl, rfl, rfl, rfl, rfl⟩

/-- R185, fourth row. -/
@[simp] theorem cbcFinish_fields (s : State) :
    (cbcFinish s).key = s.key ∧ (cbcFinish s).keyLen = s.keyLen ∧
      (cbcFinish s).ks = s.ks ∧ (cbcFinish s).nk = s.nk ∧
      (cbcFinish s).nr = s.nr ∧ (cbcFinish s).kvalid = s.kvalid ∧
      (cbcFinish s).st = zeroBlock ∧ (cbcFinish s).iv = s.iv ∧
      (cbcFinish s).chain = s.chain ∧ (cbcFinish s).ibuf = s.ibuf ∧
      (cbcFinish s).ilen = s.ilen ∧ (cbcFinish s).obuf = s.obuf ∧
      (cbcFinish s).olen = s.olen ∧ (cbcFinish s).res = s.res ∧
      (cbcFinish s).phase = .done ∧ (cbcFinish s).blk = s.blk ∧
      (cbcFinish s).err = 0 ∧ (cbcFinish s).errInfo = 0 ∧
      (cbcFinish s).cfg = s.cfg ∧ (cbcFinish s).draws = s.draws ∧
      (cbcFinish s).resets = s.resets ∧ (cbcFinish s).inputs = s.inputs ∧
      (cbcFinish s).responses = s.responses :=
  ⟨rfl, rfl, rfl, rfl, rfl, rfl, rfl, rfl, rfl, rfl, rfl, rfl, rfl, rfl, rfl, rfl, rfl, rfl, rfl, rfl, rfl, rfl, rfl⟩

/-- An illegal word (R230). -/
@[simp] theorem illegalCommand_fields (cw : Reg32) (s : State) :
    (illegalCommand cw s).key = s.key ∧ (illegalCommand cw s).keyLen = s.keyLen ∧
      (illegalCommand cw s).ks = s.ks ∧ (illegalCommand cw s).nk = s.nk ∧
      (illegalCommand cw s).nr = s.nr ∧ (illegalCommand cw s).kvalid = s.kvalid ∧
      (illegalCommand cw s).st = s.st ∧ (illegalCommand cw s).iv = s.iv ∧
      (illegalCommand cw s).chain = s.chain ∧ (illegalCommand cw s).ibuf = s.ibuf ∧
      (illegalCommand cw s).ilen = s.ilen ∧ (illegalCommand cw s).obuf = s.obuf ∧
      (illegalCommand cw s).olen = s.olen ∧ (illegalCommand cw s).res = s.res ∧
      (illegalCommand cw s).phase = s.phase ∧ (illegalCommand cw s).blk = s.blk ∧
      (illegalCommand cw s).err = 0x80 ∧ (illegalCommand cw s).errInfo = cw ∧
      (illegalCommand cw s).cfg = s.cfg ∧ (illegalCommand cw s).draws = s.draws ∧
      (illegalCommand cw s).resets = s.resets ∧ (illegalCommand cw s).inputs = s.inputs ∧
      (illegalCommand cw s).responses = s.responses :=
  ⟨rfl, rfl, rfl, rfl, rfl, rfl, rfl, rfl, rfl, rfl, rfl, rfl, rfl, rfl, rfl, rfl, rfl, rfl, rfl, rfl, rfl, rfl, rfl⟩

/-- The reset input (R260). -/
@[simp] theorem hardwareReset_fields (s : State) :
    (hardwareReset s).key = State.reset.key ∧ (hardwareReset s).keyLen = State.reset.keyLen ∧
      (hardwareReset s).ks = State.reset.ks ∧ (hardwareReset s).nk = State.reset.nk ∧
      (hardwareReset s).nr = State.reset.nr ∧ (hardwareReset s).kvalid = State.reset.kvalid ∧
      (hardwareReset s).st = State.reset.st ∧ (hardwareReset s).iv = State.reset.iv ∧
      (hardwareReset s).chain = State.reset.chain ∧ (hardwareReset s).ibuf = State.reset.ibuf ∧
      (hardwareReset s).ilen = State.reset.ilen ∧ (hardwareReset s).obuf = State.reset.obuf ∧
      (hardwareReset s).olen = State.reset.olen ∧ (hardwareReset s).res = State.reset.res ∧
      (hardwareReset s).phase = State.reset.phase ∧ (hardwareReset s).blk = State.reset.blk ∧
      (hardwareReset s).err = State.reset.err ∧ (hardwareReset s).errInfo = State.reset.errInfo ∧
      (hardwareReset s).cfg = s.cfg ∧ (hardwareReset s).draws = s.draws ∧
      (hardwareReset s).resets = s.resets + 1 ∧ (hardwareReset s).inputs = s.inputs ∧
      (hardwareReset s).responses = s.responses :=
  ⟨rfl, rfl, rfl, rfl, rfl, rfl, rfl, rfl, rfl, rfl, rfl, rfl, rfl, rfl, rfl, rfl, rfl, rfl, rfl, rfl, rfl, rfl, rfl⟩

/-- A host write of one byte touches KEY, IV, ST or IBUF only (R65). -/
@[simp] theorem setSpaceByte_fields (sp : Space) (i : Nat) (v : Byte) (s : State) :
    (setSpaceByte sp i v s).keyLen = s.keyLen ∧ (setSpaceByte sp i v s).ks = s.ks ∧
      (setSpaceByte sp i v s).nk = s.nk ∧ (setSpaceByte sp i v s).nr = s.nr ∧
      (setSpaceByte sp i v s).kvalid = s.kvalid ∧ (setSpaceByte sp i v s).chain = s.chain ∧
      (setSpaceByte sp i v s).ilen = s.ilen ∧ (setSpaceByte sp i v s).obuf = s.obuf ∧
      (setSpaceByte sp i v s).olen = s.olen ∧ (setSpaceByte sp i v s).res = s.res ∧
      (setSpaceByte sp i v s).phase = s.phase ∧ (setSpaceByte sp i v s).blk = s.blk ∧
      (setSpaceByte sp i v s).err = s.err ∧ (setSpaceByte sp i v s).errInfo = s.errInfo ∧
      (setSpaceByte sp i v s).cfg = s.cfg ∧ (setSpaceByte sp i v s).draws = s.draws ∧
      (setSpaceByte sp i v s).resets = s.resets ∧ (setSpaceByte sp i v s).inputs = s.inputs ∧
      (setSpaceByte sp i v s).responses = s.responses := by
  cases sp <;> simp [setSpaceByte]

end Sys2Proof.Machine
end

