-- ==== Sys2Proof/Laws/Exec.lean ====
section
/-! SUPPORT. One equation for each command whose meaning runs a loop or checks its input: everything it can do, so that no
proof unfolds it. A failure is `raise` on the state before the command. -/

namespace Sys2Proof.Machine

/-- KEXP on a legal key length (42_key_schedule.md R138). -/
theorem exec_kexp_legal (s : State) (h : s.keyLen = 16 ∨ s.keyLen = 24 ∨ s.keyLen = 32) :
    exec .kexp s = .next (succeed { s with
      ks := writeSchedule (expand (keyBytes s)) s.ks
      nk := BitVec.ofNat 8 (s.keyLen.toNat / 4)
      nr := BitVec.ofNat 8 (roundsOf (s.keyLen.toNat / 4))
      kvalid := true }) := by
  simp only [exec, execKexp]
  rw [if_neg (by tauto)]

/-- ADDRK of a legal index with a schedule (43_round_primitives.md R154). -/
theorem exec_addrk_legal (r : Byte) (s : State) (h1 : s.kvalid = true) (h2 : r.toNat ≤ s.nr.toNat) :
    exec (.addrk r) s = .next (succeed { s with st := addRoundKey s.st (roundKey (schedule s) r.toNat) }) := by
  simp only [exec, execAddrk, h1, BitVec.lt_def]
  rw [if_neg (by simp), if_neg (by omega)]

/-- PAD (46_padding.md R202). -/
theorem exec_pad (s : State) :
    exec .pad s =
      if s.cfg.bufMax < s.ilen.toNat then .next (raise .output ⟨.lengthOverflow, s.ilen⟩ s)
      else .next (succeed (setOutput (padInput (inputBytes s)) s)) :=
  rfl

/-- STRIP (46_padding.md R204). -/
theorem exec_strip (s : State) :
    exec .strip s =
      if bufSize s < s.ilen.toNat then .next (raise .output ⟨.lengthOverflow, s.ilen⟩ s)
      else
        match stripOutput (inputBytes s) with
        | .error f => .next (raise .output f s)
        | .ok out => .next (succeed (setOutput out s)) := by
  have hin : inputBytes { s with olen := 0 } = inputBytes s := rfl
  by_cases h : bufSize s < s.ilen.toNat
  · rw [if_pos h]
    simp only [exec, execStrip]
    rw [if_pos (by simpa [bufSize] using h)]
    rfl
  · rw [if_neg h]
    simp only [exec, execStrip]
    rw [if_neg (by simpa [bufSize] using h), hin]
    cases stripOutput (inputBytes s) <;> rfl

/-- CBCENC (45_cbc.md R182). -/
theorem exec_cbcenc (s : State) :
    exec .cbcenc s =
      if s.kvalid = false then .next (raise .chaining ⟨.noKeySchedule, 0⟩ s)
      else if s.cfg.bufMax < s.ilen.toNat then .next (raise .chaining ⟨.lengthOverflow, s.ilen⟩ s)
      else
        .next (cbcFinish (setOutput (cbcEncrypt (schedule s) s.iv (inputBytes s)) { s with
          chain := blockAt (cbcEncrypt (schedule s) s.iv (inputBytes s)) (s.ilen.toNat / 16)
          blk := BitVec.ofNat 32 (s.ilen.toNat / 16 + 1) })) := by
  by_cases hv : s.kvalid = false
  · rw [if_pos hv]
    simp only [exec, execCbcenc, withSchedule, if_pos hv]
  rw [if_neg hv]
  by_cases hl : s.cfg.bufMax < s.ilen.toNat
  · rw [if_pos hl]
    simp only [exec, execCbcenc, withSchedule, if_pos hl, if_neg hv]
  rw [if_neg hl]
  have hlen := length_padInput (inputBytes s)
  rw [length_inputBytes] at hlen
  have hn : (padInput (inputBytes s)).length / 16 = s.ilen.toNat / 16 + 1 := by omega
  have hib : inputBytes (cbcInit s) = inputBytes s := rfl
  have hch := cbcEncryptBlocks_chain (schedule s) s.iv (padInput (inputBytes s)) (s.ilen.toNat / 16 + 1)
  have hce := length_cbcEncrypt (schedule s) s.iv (inputBytes s)
  rw [length_inputBytes] at hce
  simp only [exec, execCbcenc, withSchedule, if_neg hl, if_neg hv]
  rw [hib, hn, cbcencLoop_eq]
  simp only [cbcEncrypt, hn] at hce ⊢
  simp [cbcFinish, succeed, cbcStart, cbcInit, setOutput, schedule] at hch hce ⊢
  simp [hch, hce]

/-- CBCDEC (45_cbc.md R184). -/
theorem exec_cbcdec (s : State) :
    exec .cbcdec s =
      if s.kvalid = false then .next (raise .chaining ⟨.noKeySchedule, 0⟩ s)
      else if bufSize s < s.ilen.toNat then .next (raise .chaining ⟨.lengthOverflow, s.ilen⟩ s)
      else
        match cbcDecrypt (schedule s) s.iv (inputBytes s) with
        | .error f => .next (raise .chaining f s)
        | .ok out => .next (cbcFinish (setOutput out { s with
            chain := blockAt (inputBytes s) (s.ilen.toNat / 16 - 1)
            blk := BitVec.ofNat 32 (s.ilen.toNat / 16) })) := by
  by_cases hv : s.kvalid = false
  · rw [if_pos hv]
    simp only [exec, execCbcdec, withSchedule, if_pos hv]
  rw [if_neg hv]
  by_cases hl : bufSize s < s.ilen.toNat
  · rw [if_pos hl]
    simp only [exec, execCbcdec, withSchedule, if_pos hl, if_neg hv]
  rw [if_neg hl]
  have hib : inputBytes (cbcInit s) = inputBytes s := rfl
  have hil : (cbcInit s).ilen = s.ilen := rfl
  simp only [exec, execCbcdec, withSchedule, if_neg hl, if_neg hv]
  rw [hib, hil]
  by_cases hr : s.ilen.toNat % 16 ≠ 0
  · rw [if_pos hr]
    simp only [cbcDecrypt, length_inputBytes]
    rw [if_pos hr]
    simp [raise, cbcInit, BitVec.ofNat_toNat]
  · rw [if_neg hr, cbcdecLoop_eq]
    simp only [cbcDecrypt, length_inputBytes]
    rw [if_neg hr]
    have hc : (cbcStart (cbcInit s)).chain = s.iv := rfl
    have hs : schedule (cbcStart (cbcInit s)) = schedule s := rfl
    rw [hc, hs]
    cases ho : stripOutput (cbcDecryptBlocks (schedule s) s.iv (inputBytes s) (s.ilen.toNat / 16)).2 with
    | error f => simp [raise, cbcStart, cbcInit]
    | ok out =>
      have h0 : s.ilen.toNat / 16 ≠ 0 := by
        intro h
        rw [h] at ho
        simp [cbcDecryptBlocks, stripOutput_nil] at ho
      have h1 := cbcDecryptBlocks_chain (schedule s) s.iv (inputBytes s) (s.ilen.toNat / 16)
      rw [if_neg h0] at h1
      simp [cbcFinish, succeed, setOutput, cbcStart, cbcInit, h1]
      intro h
      exact absurd (by omega) h0

/-- A step serves the oldest event. -/
theorem step_cons (s : State) (e : HostEvent) (rest : List HostEvent) (h : s.inputs = e :: rest) :
    step s = serve e { s with inputs := rest } := by
  simp [step, nextEvent, h, takeEvent]

/-- Issuing a word that decodes runs its command. -/
theorem serve_issue_ok (cw : Reg32) (i : Instr) (s : State) (h : decode cw = .ok i) :
    serve (.issue cw) s = exec i (respond .commandEnded s) := by
  simp [serve, issueCommand, h]

/-- Issuing an illegal word reports it. -/
theorem serve_issue_error (cw : Reg32) (e : IllegalWord) (s : State) (h : decode cw = .error e) :
    serve (.issue cw) s = .next (illegalCommand cw (respond .commandEnded s)) := by
  simp [serve, issueCommand, h]

/-- No error kind has the code of success (60_exceptions.md R221). -/
theorem code_ne_zero (k : ErrorKind) : k.code ≠ 0 := by
  cases k <;> decide

end Sys2Proof.Machine
end

