-- ==== Sys2Proof/Laws/Field.lean ====
section
/-! SUPPORT. The multiplier's loop distributes over exclusive OR on either side, so that two of its uses agree when they
agree on the eight powers of x. -/

namespace Sys2Proof.Machine

theorem double_xor (a b : Byte) : double (a ^^^ b) = double a ^^^ double b := by
  have h : ∀ p q : Bool, ∀ x y u : Byte,
      (if (p ^^ q) then (x ^^^ y) ^^^ u else x ^^^ y) =
        (if p then x ^^^ u else x) ^^^ (if q then y ^^^ u else y) := by
    intro p q x y u
    cases p <;> cases q <;> simp <;> ac_nf <;> simp
  simp only [double, BitVec.getLsbD_xor, BitVec.shiftLeft_xor_distrib]
  exact h _ _ _ _ _

theorem multiplyLoop_xor_right (n : Nat) (x y a b c : Byte) :
    multiplyLoop n (x ^^^ y) a (b ^^^ c) = multiplyLoop n x a b ^^^ multiplyLoop n y a c := by
  induction n generalizing x y a b c with
  | zero => rfl
  | succ n ih =>
    simp only [multiplyLoop, BitVec.ushiftRight_xor_distrib, ← ih]
    congr 1
    rw [BitVec.getLsbD_xor]
    cases b.getLsbD 0 <;> cases c.getLsbD 0 <;> simp <;> ac_nf <;> simp

theorem multiplyLoop_xor_left (n : Nat) (x y a b c : Byte) :
    multiplyLoop n (x ^^^ y) (a ^^^ b) c = multiplyLoop n x a c ^^^ multiplyLoop n y b c := by
  induction n generalizing x y a b c with
  | zero => rfl
  | succ n ih =>
    simp only [multiplyLoop, double_xor, ← ih]
    congr 1
    cases c.getLsbD 0 <;> simp <;> ac_nf

/-- A byte is the sum of the powers of x its bits name. -/
theorem byte_eq_sum_of_powers (x : Byte) :
    x = (if x.getLsbD 0 then BitVec.twoPow 8 0 else 0) ^^^ (if x.getLsbD 1 then BitVec.twoPow 8 1 else 0) ^^^
      (if x.getLsbD 2 then BitVec.twoPow 8 2 else 0) ^^^ (if x.getLsbD 3 then BitVec.twoPow 8 3 else 0) ^^^
      (if x.getLsbD 4 then BitVec.twoPow 8 4 else 0) ^^^ (if x.getLsbD 5 then BitVec.twoPow 8 5 else 0) ^^^
      (if x.getLsbD 6 then BitVec.twoPow 8 6 else 0) ^^^ (if x.getLsbD 7 then BitVec.twoPow 8 7 else 0) := by
  revert x
  decide +kernel

/-- Two maps that distribute over exclusive OR agree everywhere when they agree on the powers of x. -/
theorem additive_ext (f g : Byte → Byte) (hf : ∀ x y, f (x ^^^ y) = f x ^^^ f y)
    (hg : ∀ x y, g (x ^^^ y) = g x ^^^ g y)
    (h : ∀ i : Fin 8, f (BitVec.twoPow 8 i.val) = g (BitVec.twoPow 8 i.val)) (x : Byte) : f x = g x := by
  have f0 : f 0 = 0 := by have := hf 0 0; simpa using this
  have g0 : g 0 = 0 := by have := hg 0 0; simpa using this
  have hi : ∀ (b : Bool) (i : Nat), i < 8 →
      f (if b then BitVec.twoPow 8 i else 0) = g (if b then BitVec.twoPow 8 i else 0) := by
    intro b i hi
    cases b
    · exact f0.trans g0.symm
    · exact h ⟨i, hi⟩
  rw [byte_eq_sum_of_powers x]
  simp only [hf, hg]
  rw [hi _ 0 (by omega), hi _ 1 (by omega), hi _ 2 (by omega), hi _ 3 (by omega), hi _ 4 (by omega),
    hi _ 5 (by omega), hi _ 6 (by omega), hi _ 7 (by omega)]

end Sys2Proof.Machine
end

