-- ==== Sys2Proof/Laws/HostProgram.lean ====
section
/-! SUPPORT. What a list of host transactions does: one event at a time, the writes of a pseudo-statement, the reads of
RDOUT (30_encoding.md R98). -/

namespace Sys2Proof.Machine

@[simp] theorem perform_nil (s : State) : perform [] s = .next { s with inputs := [] } := rfl

@[simp] theorem andThen_next (t : State) (f : State → Result) : andThen (.next t) f = f t := rfl

/-- A transaction that answers a next state leaves the rest of the list to perform. -/
theorem perform_cons (e : HostEvent) (p : List HostEvent) (s t : State)
    (h : serve e { s with inputs := p } = .next t) (hp : t.inputs = p) : perform (e :: p) s = perform p t := by
  subst hp
  simp only [perform, List.length_cons, runSteps]
  rw [step_cons _ e t.inputs rfl, h]

/-- The same for an answer written without its events: `perform` sets them. -/
theorem perform_step (e : HostEvent) (p : List HostEvent) (s t : State)
    (h : serve e { s with inputs := p } = .next { t with inputs := p }) : perform (e :: p) s = perform p t :=
  (perform_cons e p s { t with inputs := p } h rfl).trans rfl

/-- The byte writes of LDIN: the buffer store after them, one answer each. -/
theorem perform_writeIbuf (bs : List Byte) (i : Nat) (p : List HostEvent) (s : State) (h : i + bs.length ≤ bufSize s) :
    perform (writeBytesFrom 5 i bs ++ p) s =
      perform p { s with
        ibuf := s.ibuf.writeBytes i bs
        responses := s.responses ++ List.replicate bs.length (.written true) } := by
  induction bs generalizing i s with
  | nil => simp [writeBytesFrom, Memory.writeBytes]
  | cons v bs ih =>
    simp only [List.length_cons] at h
    have hi : i < s.cfg.bufMax + 16 := by simp only [bufSize] at h; omega
    rw [writeBytesFrom, List.cons_append,
      perform_step _ _ s { s with ibuf := s.ibuf.write i v, responses := s.responses ++ [.written true] }
        (by simp [serve, portDataWrite, spaceOf, spaceSize, hostWritable, setSpaceByte, respond, hi]),
      ih (i + 1) _ (by simp only [bufSize] at h ⊢; omega)]
    simp [Memory.writeBytes, List.replicate_succ]

/-- The byte writes of LDKEY: every key byte after them, one answer each. -/
theorem perform_writeKey (bs : List Byte) (i : Nat) (s : State) (h : i + bs.length ≤ 32) :
    ∃ key : Vector Byte 32,
      (∀ p, perform (writeBytesFrom 0 i bs ++ p) s =
        perform p { s with key := key, responses := s.responses ++ List.replicate bs.length (.written true) }) ∧
      ∀ j, j < 32 → byteAt key j = if i ≤ j ∧ j < i + bs.length then bs.getD (j - i) 0 else byteAt s.key j := by
  induction bs generalizing i s with
  | nil => exact ⟨s.key, by simp [writeBytesFrom], fun j _ => by rw [if_neg]; simp⟩
  | cons v bs ih =>
    simp only [List.length_cons] at h
    have hi : i < 32 := by omega
    obtain ⟨key, h1, h2⟩ := ih (i + 1) { s with
        key := s.key.setIfInBounds i v, responses := s.responses ++ [.written true] } (by omega)
    refine ⟨key, fun p => ?_, fun j hj => ?_⟩
    · rw [writeBytesFrom, List.cons_append,
        perform_step _ _ s { s with
          key := s.key.setIfInBounds i v, responses := s.responses ++ [.written true] }
          (by simp [serve, portDataWrite, spaceOf, spaceSize, hostWritable, setSpaceByte, respond, hi]), h1]
      simp [List.replicate_succ]
    · rw [h2 j hj, byteAt_setIfInBounds _ _ _ _ hj]
      by_cases hij : j = i
      · subst hij
        simp
      · by_cases hlt : i + 1 ≤ j ∧ j < i + 1 + bs.length
        · have h3 : j - i = (j - (i + 1)) + 1 := by omega
          rw [if_pos hlt, if_pos (by simp only [List.length_cons]; omega), h3, List.getD_cons_succ]
        · rw [if_neg hlt, if_neg hij, if_neg (by simp only [List.length_cons]; omega)]

/-- Reads of OBUF below OLEN: the bytes the store holds there. -/
theorem perform_readObuf (is : List Nat) (s : State) (ho : s.olen.toNat ≤ bufSize s)
    (h : ∀ i ∈ is, i < s.olen.toNat) :
    perform (is.map fun i => .dataRead 6 i) s =
      .next { s with inputs := [], responses := s.responses ++ is.map fun i => .byteValue true (obufByte s i) } := by
  induction is generalizing s with
  | nil => simp
  | cons i is ih =>
    have hi := h i (by simp)
    have hb : i < s.cfg.bufMax + 16 := by simp only [bufSize] at ho; omega
    have hstep : perform ((i :: is).map fun i => .dataRead 6 i) s =
        perform (is.map fun i => .dataRead 6 i) { s with
          responses := s.responses ++ [.byteValue true (obufByte s i)] } :=
      perform_step _ _ _ _
        (by simp [serve, portDataRead, spaceOf, spaceSize, spaceByte, respond, hb, hi, obufByte])
    rw [hstep]
    rw [ih]
    · simp [obufByte]
    · simpa [bufSize] using ho
    · exact fun j hj => h j (by simp [hj])

/-- RDOUT reads OLEN and the whole output (R98). -/
theorem rdOut_eq (s : State) (ho : s.olen.toNat ≤ bufSize s) :
    rdOut s = .next { s with
      inputs := []
      responses := s.responses ++ .regValue true s.olen :: (outputBytes s).map (.byteValue true) } := by
  have hr : readBytesFrom 6 0 s.olen.toNat = (List.range s.olen.toNat).map fun i => .dataRead 6 i := by
    simp [readBytesFrom]
  rw [rdOut, perform_cons _ _ s { s with inputs := [], responses := s.responses ++ [.regValue true s.olen] } rfl rfl,
    perform_nil, andThen_next]
  have hl : lastGet { s with inputs := [], responses := s.responses ++ [.regValue true s.olen] } = s.olen := by
    simp [lastGet, getValues]
  rw [hl, hr, perform_readObuf _ _ (by simpa [bufSize] using ho) (by simp)]
  simp [outputBytes, obufByte, Function.comp_def]

/-- A command and `GET ERR` (R104): the command's own next state, and ERR answered. -/
theorem perform_command_getErr (i : Instr) (s t : State) (hi : decode (encode i) = .ok i)
    (h : exec i { s with inputs := [.regRead 1], responses := s.responses ++ [.commandEnded] } = .next t)
    (hp : t.inputs = [.regRead 1]) :
    perform [command i, .regRead 1] s =
      .next { t with inputs := [], responses := t.responses ++ [.regValue true (t.err.zeroExtend 32)] } := by
  rw [perform_cons _ _ s t (by rw [command, serve_issue_ok _ _ _ hi]; exact h) hp,
    perform_step _ _ _ { t with responses := t.responses ++ [.regValue true (t.err.zeroExtend 32)] } rfl, perform_nil]

end Sys2Proof.Machine
end

