-- ==== Sys2Proof/Laws/PerInstr.lean ====
section
/-! SUPPORT. Statements proved one command at a time. `Fields`: the word of a command holds its opcode, its operands and
zeros everywhere else (30_encoding.md R90, R91). -/

namespace Sys2Proof.Laws.Fields

/-- The word of a command: RSV zero, OP its opcode, A and B its operands, zero where its format has none. -/
def Statement (i : Instr) : Prop :=
  rsvField (encode i) = 0 ∧ opField (encode i) = i.mnemonic.opcode ∧ aField (encode i) = i.fieldA ∧
    bField (encode i) = i.fieldB ∧ i.mnemonic.format.unusedZero i.fieldA i.fieldB = true

theorem gfmul (a b : Byte) : Statement (.gfmul a b) :=
  ⟨(fields_encode _).1, (fields_encode _).2.1, (fields_encode _).2.2.1, (fields_encode _).2.2.2, rfl⟩

theorem kexp : Statement .kexp := by unfold Statement; decide

theorem subb : Statement .subb := by unfold Statement; decide

theorem shrow : Statement .shrow := by unfold Statement; decide

theorem mixc : Statement .mixc := by unfold Statement; decide

theorem addrk (r : Byte) : Statement (.addrk r) :=
  ⟨(fields_encode _).1, (fields_encode _).2.1, (fields_encode _).2.2.1, (fields_encode _).2.2.2, rfl⟩

theorem isubb : Statement .isubb := by unfold Statement; decide

theorem ishrow : Statement .ishrow := by unfold Statement; decide

theorem imixc : Statement .imixc := by unfold Statement; decide

theorem encb : Statement .encb := by unfold Statement; decide

theorem decb : Statement .decb := by unfold Statement; decide

theorem cbcenc : Statement .cbcenc := by unfold Statement; decide

theorem cbcdec : Statement .cbcdec := by unfold Statement; decide

theorem pad : Statement .pad := by unfold Statement; decide

theorem strip : Statement .strip := by unfold Statement; decide

theorem ivgen : Statement .ivgen := by unfold Statement; decide

end Sys2Proof.Laws.Fields
end

