-- ==== Sys2Proof/Tests/Slice0.lean ====
section
/-! SUPPORT. Checks of the model against 30_encoding.md R93 and the vectors of 95_test_vectors.md, the refusals of
WellFormed, and one witness per statement of Obligations.lean that has hypotheses. -/

namespace Sys2Proof.Tests

open Sys2Proof.Machine

-- One theorem at a time: run side by side, the kernel evaluations below wait on one another, a thread each.
set_option Elab.async false

/-! ### Small states -/

/-- The state an outcome gives; the tests use it on outcomes that give one. -/
def nextOf : Result → State
  | .next t => t
  | .fault _ => State.reset
  | .refused _ => State.reset

/-- Whether an outcome is a next state: outcomes themselves have no decidable equality. -/
def isNext : Result → Bool
  | .next _ => true
  | .fault _ => false
  | .refused _ => false

theorem next_nextOf {r : Result} (h : isNext r = true) : r = .next (nextOf r) := by
  cases r <;> simp_all [isNext, nextOf]

/-- The key bytes 00 01 .. 1f with a key length. -/
def withKey (n : Nat) : State :=
  { State.reset with key := Vector.ofFn fun i => BitVec.ofNat 8 i.val, keyLen := BitVec.ofNat 32 n }

/-- The state after KEXP of the key 00 01 .. of `n` bytes (V11, V12, V13). -/
def keyed (n : Nat) : State := nextOf (exec .kexp (withKey n))

/-- A State register with these bytes. -/
def withSt (b : Block) (s : State) : State := { s with st := b }

/-- An input buffer with these bytes and their number in ILEN. -/
def loaded (bs : List Byte) (s : State) : State :=
  { s with ibuf := Memory.writeBytes [] 0 bs, ilen := BitVec.ofNat 32 bs.length }

/-- A state whose next event is this one. -/
def facing (e : HostEvent) (s : State) : State := { s with inputs := [e] }

/-- 00 11 22 .. ff. -/
def counting : Block := Vector.ofFn fun i => BitVec.ofNat 8 (17 * i.val)

/-- The source's IV (V4). -/
def ivS : Block := #v[0x66, 0x47, 0x78, 0x53, 0x57, 0x64, 0x35, 0x39, 0x41, 0x59, 0x64, 0x69, 0x51, 0x58, 0x5a, 0x53]

/-- The first row of CBCENC in V19. -/
def cipherC : List Byte :=
  [0x3b, 0x43, 0x88, 0x86, 0x4f, 0x4e, 0xbd, 0x72, 0x89, 0x96, 0xcf, 0x94, 0xba, 0x75, 0x82, 0xb2] ++
    [0x84, 0x99, 0x2e, 0xbc, 0x4f, 0x49, 0x92, 0x66, 0x93, 0x26, 0xdc, 0xd9, 0xc4, 0x78, 0x50, 0xab]

/-- A keyed core with the source's IV. -/
def keyedIv : State := { keyed 16 with iv := ivS }

/-! ### Decoding: words written out from R90 and R93 -/

theorem test_decode_gfmul : decode 0x00060F10 = .ok (.gfmul 15 6) := by decide
theorem test_decode_gfmul_largest : decode 0x00FFFF10 = .ok (.gfmul 0xff 0xff) := by decide
theorem test_decode_kexp : decode 0x00000020 = .ok .kexp := by decide
theorem test_decode_subb : decode 0x00000030 = .ok .subb := by decide
theorem test_decode_shrow : decode 0x00000031 = .ok .shrow := by decide
theorem test_decode_mixc : decode 0x00000032 = .ok .mixc := by decide
theorem test_decode_addrk : decode 0x00000B33 = .ok (.addrk 11) := by decide
theorem test_decode_isubb : decode 0x00000038 = .ok .isubb := by decide
theorem test_decode_ishrow : decode 0x00000039 = .ok .ishrow := by decide
theorem test_decode_imixc : decode 0x0000003A = .ok .imixc := by decide
theorem test_decode_encb : decode 0x00000040 = .ok .encb := by decide
theorem test_decode_decb : decode 0x00000041 = .ok .decb := by decide
theorem test_decode_cbcenc : decode 0x00000050 = .ok .cbcenc := by decide
theorem test_decode_cbcdec : decode 0x00000051 = .ok .cbcdec := by decide
theorem test_decode_pad : decode 0x00000060 = .ok .pad := by decide
theorem test_decode_strip : decode 0x00000061 = .ok .strip := by decide
theorem test_decode_ivgen : decode 0x00000070 = .ok .ivgen := by decide

/-- V20: the illegal words, each by its own reason. -/
theorem test_decode_illegal :
    decode 0x00000000 = .error .opcodeUnassigned ∧ decode 0xFFFFFFFF = .error .reservedNonzero ∧
      decode 0x01000020 = .error .reservedNonzero ∧ decode 0x00000120 = .error .unusedOperandNonzero ∧
      decode 0x00010033 = .error .unusedOperandNonzero ∧ decode 0x01060F10 = .error .reservedNonzero ∧
      decode 0x00000034 = .error .opcodeUnassigned ∧ decode 0x0000003B = .error .opcodeUnassigned ∧
      decode 0x00000042 = .error .opcodeUnassigned ∧ decode 0x00000071 = .error .opcodeUnassigned := by decide

/-- `match` rows of different mnemonics overlap under neither mask: no word is two commands. -/
theorem test_rows_disjoint :
    Mnemonic.all.Pairwise fun m n =>
      m.matchBits &&& m.maskBits &&& n.maskBits ≠ n.matchBits &&& m.maskBits &&& n.maskBits := by decide

/-! ### WellFormed: statements the notation refuses (R97) -/

theorem test_illformed_missing_operand : (CommandText.mk .gfmul [15]).wellFormed = false := by decide
theorem test_illformed_extra_operand : (CommandText.mk .subb [0]).wellFormed = false := by decide
theorem test_illformed_operand_range : (CommandText.mk .addrk [256]).wellFormed = false := by decide
theorem test_illformed_not_assembled : assemble ⟨.gfmul, [15, 256]⟩ = none := by decide
theorem test_wellformed_assembled : assemble ⟨.gfmul, [15, 6]⟩ = some (.gfmul 15 6) := by decide

/-- R66: host programs that provoke an error response are refused; one that provokes none is accepted. -/
theorem test_program_accepted :
    programAccepted Config.ofVectors (loadKey [0, 1] ++ [command .kexp] ++ rdRk 14) = true ∧
      programAccepted Config.ofVectors [.dataWrite 3 0 0] = false ∧
      programAccepted Config.ofVectors [.dataRead 5 80] = false ∧
      programAccepted Config.ofVectors [.regWrite 5 0] = false ∧
      programAccepted Config.ofVectors [.regRead 10] = false := by decide

/-- R104: a key longer than 32 bytes is handed over by its length alone; KEXP rejects it and the host reads the length. -/
theorem test_long_key_rejected :
    loadKey (List.replicate 33 0) = [.regWrite 3 33] ∧
      getValues (nextOf (newKeySchedule (List.replicate 33 0) State.reset)).responses = [0x01, 33] := by decide

/-- R104, R243: encrypt with no schedule returns its error, and RDOUT reads no byte. -/
theorem test_encrypt_without_schedule :
    getValues (nextOf (encryptOperation [0x61] State.reset)).responses = [0x81, 0] ∧
      readValues (nextOf (encryptOperation [0x61] State.reset)).responses = [] := by decide

/-! ### The commands on the vectors -/

/-- V10. -/
theorem test_gfmul_reduces : (nextOf (exec (.gfmul 0x02 0x87) State.reset)).res = 0x15 := by decide
/-- V10. -/
theorem test_gfmul_inverses : (nextOf (exec (.gfmul 0x53 0xca) State.reset)).res = 1 := by decide


/-- V14. -/
theorem test_subb_zeros : (nextOf (exec .subb State.reset)).st = Vector.replicate 16 0x63 := by decide +kernel
/-- V14. -/
theorem test_isubb_zeros : (nextOf (exec .isubb State.reset)).st = Vector.replicate 16 0x52 := by decide +kernel
/-- V14. -/
theorem test_shrow_indices :
    (nextOf (exec .shrow (withSt (Vector.ofFn fun i => BitVec.ofNat 8 i.val) State.reset))).st =
      #v[0, 5, 0xa, 0xf, 4, 9, 0xe, 3, 8, 0xd, 2, 7, 0xc, 1, 6, 0xb] := by decide
/-- V14. -/
theorem test_ishrow_indices :
    (nextOf (exec .ishrow (withSt (Vector.ofFn fun i => BitVec.ofNat 8 i.val) State.reset))).st =
      #v[0, 0xd, 0xa, 7, 4, 1, 0xe, 0xb, 8, 5, 2, 0xf, 0xc, 9, 6, 3] := by decide
/-- V14. -/
theorem test_mixc_columns :
    (nextOf (exec .mixc (withSt
      #v[0xd4, 0xd4, 0xd4, 0xd5, 0x2d, 0x26, 0x31, 0x4c, 1, 0, 0, 0, 0, 1, 0, 0] State.reset))).st =
      #v[0xd5, 0xd5, 0xd7, 0xd6, 0x4d, 0x7e, 0xbd, 0xf8, 2, 1, 1, 3, 3, 2, 1, 1] := by decide +kernel
/-- V14. -/
theorem test_imixc_columns :
    (nextOf (exec .imixc (withSt
      #v[1, 0, 0, 0, 0xdb, 0x13, 0x53, 0x45, 0, 0, 0, 0, 0, 0, 0, 0] State.reset))).st =
      #v[0x0e, 9, 0x0d, 0x0b, 0x32, 0xa4, 0x1d, 0x55, 0, 0, 0, 0, 0, 0, 0, 0] := by decide +kernel
/-- V14: ADDRK 10 of the zero State is round key 10. -/
theorem test_addrk_last :
    (nextOf (exec (.addrk 10) (keyed 16))).st =
      #v[0x13, 0x11, 0x1d, 0x7f, 0xe3, 0x94, 0x4a, 0x17, 0xf3, 0x07, 0xa7, 0x8b, 0x4d, 0x2b, 0x30, 0xc5] := by
  decide +kernel
/-- V14: `r = NR + 1`. -/
theorem test_addrk_beyond :
    (nextOf (exec (.addrk 11) (keyed 16))).err = 0x82 ∧ (nextOf (exec (.addrk 11) (keyed 16))).errInfo = 11 := by
  decide +kernel
/-- V18. -/
theorem test_pad_three :
    outputBytes (nextOf (exec .pad (loaded [0x61, 0x62, 0x63] State.reset))) =
      [0x61, 0x62, 0x63] ++ List.replicate 13 0x0d := by decide +kernel
/-- V18: a whole extra block. -/
theorem test_pad_whole_block :
    outputBytes (nextOf (exec .pad (loaded (List.replicate 16 0x41) State.reset))) =
      List.replicate 16 0x41 ++ List.replicate 16 0x10 := by decide +kernel
/-- V18: only the last two bytes are checked. -/
theorem test_strip_two :
    outputBytes (nextOf (exec .strip (loaded (List.replicate 13 0x41 ++ [3, 2, 2]) State.reset))) =
      List.replicate 13 0x41 ++ [3] := by decide +kernel
/-- V18. -/
theorem test_strip_inconsistent :
    (nextOf (exec .strip (loaded (List.replicate 13 0x41 ++ [2, 3, 3]) State.reset))).err = 0x06 := by decide +kernel
/-- R211: IVGEN succeeds without a schedule. -/
theorem test_ivgen : (nextOf (exec .ivgen State.reset)).err = 0 ∧ (nextOf (exec .ivgen State.reset)).draws = 1 := by
  decide

/-! ### Witnesses: for each statement with hypotheses, values that meet them, one for each clause -/

theorem witness_DecodedWordIsItsEncoding : decode 0x00FFFF10 = .ok (.gfmul 0xff 0xff) := by decide

theorem witness_StatementsAssembleToTheirCommand :
    ((CommandText.mk .gfmul [15]).operands.length ≠ (CommandText.mk .gfmul [15]).mnemonic.operandCount) ∧
      ∃ v ∈ (CommandText.mk .addrk [256]).operands, 256 ≤ v := by decide

theorem witness_IllegalWordReported :
    (facing (.issue 0x01000020) State.reset).inputs = .issue 0x01000020 :: [] ∧
      ∀ m : Mnemonic, (0x01000020 : Reg32) &&& m.maskBits ≠ m.matchBits :=
  ⟨rfl, fun m => by cases m <;> decide⟩

theorem witness_StepRunsDecodedCommand :
    ((facing (.issue 0x00000030) State.reset).inputs = .issue 0x00000030 :: [] ∧ decode 0x00000030 = .ok .subb) ∧
      decodeTableWord 32 0x00000030 = some .subb := by decide

theorem witness_RegisterPortFollowsMap :
    (facing (.regRead 9) State.reset).inputs = .regRead 9 :: [] ∧
      (facing (.regRead 10) State.reset).inputs = .regRead 10 :: [] ∧
      (facing (.regWrite 4 0xFFFFFFFF) State.reset).inputs = .regWrite 4 0xFFFFFFFF :: [] ∧
      (facing (.regWrite 5 1) State.reset).inputs = .regWrite 5 1 :: [] ∧ (0 < 10 ∧ 9 < 10) := by decide

theorem witness_DataPortReads :
    (facing (.dataRead 0 31) State.reset).inputs = .dataRead 0 31 :: [] ∧
      (facing (.dataRead 3 176) (keyed 16)).inputs = .dataRead 3 176 :: [] ∧
      (facing (.dataRead 6 80) State.reset).inputs = .dataRead 6 80 :: [] ∧
      (facing (.dataRead 7 0) State.reset).inputs = .dataRead 7 0 :: [] := by decide +kernel

theorem witness_DataPortWrites :
    (facing (.dataWrite 0 31 0xff) State.reset).inputs = .dataWrite 0 31 0xff :: [] ∧ 31 < 32 ∧
      (facing (.dataWrite 1 15 0xff) State.reset).inputs = .dataWrite 1 15 0xff :: [] ∧ 15 < 16 ∧
      (facing (.dataWrite 5 79 0xff) State.reset).inputs = .dataWrite 5 79 0xff :: [] ∧
      (facing (.dataWrite 5 80 0xff) State.reset).inputs = .dataWrite 5 80 0xff :: [] := by decide

theorem witness_HostReadSeesLatestWrite :
    (HostEvent.dataWrite 5 79 1).accepted State.reset.cfg = true ∧
      (HostEvent.dataRead 6 79).accepted State.reset.cfg = true ∧
      (HostEvent.dataRead 5 79).accepted State.reset.cfg = true := by decide

theorem witness_HostTransactionsKeepResults :
    (facing (.regWrite 3 16) State.reset).inputs = .regWrite 3 16 :: [] ∧ HostEvent.regWrite 3 16 ≠ .reset ∧
      (∀ cw, HostEvent.regWrite 3 16 ≠ .issue cw) ∧
      step (facing (.regWrite 3 16) State.reset) = .next (nextOf (step (facing (.regWrite 3 16) State.reset))) :=
  ⟨rfl, by decide, by simp, rfl⟩

theorem witness_ResetGivesResetValues : (facing .reset (keyed 16)).inputs = .reset :: [] := by decide +kernel

theorem witness_IdleCoreWaits : State.reset.inputs = [] := rfl

theorem witness_GfmulWritesProduct : rsvField 0x01060F10 ≠ 0 ∧ opField 0x01060F10 = 0x10 := by decide

theorem witness_MultiplyLaws : (0x53 : Byte) ≠ 0 := by decide

theorem witness_SboxInverseAndDerivation : (0xff : Byte) ≠ 0 := by decide

theorem witness_RoundConstantsByDoubling : (2 ≤ 2 ∧ 2 ≤ 10) ∧ (2 ≤ 10 ∧ 10 ≤ 10) := by decide

theorem witness_ExpansionFollowsRecurrence :
    (keyBytes (withKey 16)).length = 16 ∧ (keyBytes (withKey 24)).length = 24 ∧
      (keyBytes (withKey 32)).length = 32 ∧ (3 < 16 / 4 ∧ 3 < 4) ∧
      (16 / 4 ≤ 4 ∧ 4 < 4 * (16 / 4 + 6 + 1)) ∧ (32 / 4 ≤ 59 ∧ 59 < 4 * (32 / 4 + 6 + 1)) := by decide +kernel

theorem witness_KexpBuildsOrRejects :
    ((withKey 16).keyLen = 16 ∧ ∀ i, i < 16 → byteAt (withKey 16).key i = BitVec.ofNat 8 i) ∧
      (withKey 24).keyLen = 24 ∧ (withKey 32).keyLen = 32 ∧ 59 < 60 ∧
      ((withKey 33).keyLen ≠ 16 ∧ (withKey 33).keyLen ≠ 24 ∧ (withKey 33).keyLen ≠ 32) := by decide +kernel

theorem witness_RoundKeyReadableThroughKs :
    (keyed 32).kvalid = true ∧ 14 ≤ (keyed 32).nr.toNat ∧ (keyed 32).nr.toNat ≤ 14 ∧ 3 < 4 := by decide +kernel

theorem witness_ScheduleWrittenOnlyByKexp :
    step (facing (.issue 0x00000030) State.reset) =
        .next (nextOf (step (facing (.issue 0x00000030) State.reset))) ∧
      (∀ rest, (facing (.issue 0x00000030) State.reset).inputs ≠ .reset :: rest) ∧
      ∀ rest, (facing (.issue 0x00000030) State.reset).inputs ≠ .issue 0x00000020 :: rest :=
  ⟨next_nextOf (by decide +kernel), by simp [facing], by simp [facing]⟩

theorem witness_SubbLooksUpEveryByte : 15 < 16 := by decide

theorem witness_ShrowShiftsRowsLeft : 3 < 4 ∧ 0 < 4 := by decide

theorem witness_MixcMultipliesColumns :
    3 < 4 ∧ byteAt (#v[0, 0, 0, 0, 0, 0, 0, 0, 0, 0, 0, 0, 0xdb, 0x13, 0x53, 0x45] : Block) (4 * 3) = 0xdb ∧
      byteAt (#v[0, 0, 0, 0, 0, 0, 0, 0, 0, 0, 0, 0, 0xdb, 0x13, 0x53, 0x45] : Block) (4 * 3 + 1) = 0x13 ∧
      byteAt (#v[0, 0, 0, 0, 0, 0, 0, 0, 0, 0, 0, 0, 0xdb, 0x13, 0x53, 0x45] : Block) (4 * 3 + 2) = 0x53 ∧
      byteAt (#v[0, 0, 0, 0, 0, 0, 0, 0, 0, 0, 0, 0, 0xdb, 0x13, 0x53, 0x45] : Block) (4 * 3 + 3) = 0x45 := by
  decide

theorem witness_AddrkChecksThenXors :
    State.reset.kvalid = false ∧
      ((keyed 16).kvalid = true ∧ (keyed 16).nr.toNat < (11 : Byte).toNat) ∧
      ((keyed 16).kvalid = true ∧ (10 : Byte).toNat ≤ (keyed 16).nr.toNat ∧ 3 < 4) ∧
      ((withSt counting (keyed 16)).kvalid = true ∧
        (∀ w, w < 4 → scheduleWord (withSt counting (keyed 16)).ks w =
          #v[BitVec.ofNat 8 (4 * w), BitVec.ofNat 8 (4 * w + 1), BitVec.ofNat 8 (4 * w + 2),
            BitVec.ofNat 8 (4 * w + 3)]) ∧
        (withSt counting (keyed 16)).st =
          #v[0x00, 0x11, 0x22, 0x33, 0x44, 0x55, 0x66, 0x77, 0x88, 0x99, 0xaa, 0xbb, 0xcc, 0xdd, 0xee, 0xff]) := by
  decide +kernel

theorem witness_IsubbLooksUpEveryByte : 15 < 16 := by decide

theorem witness_IshrowShiftsRowsRight : 3 < 4 ∧ 0 < 4 := by decide

theorem witness_ImixcMultipliesColumns :
    3 < 4 ∧ (∀ k, k < 4 → byteAt (Vector.replicate 16 0xff : Block) (4 * 3 + k) = 0xff) ∧
      byteAt (#v[0, 0, 0, 0, 0, 0, 0, 0, 0, 0, 0, 0, 0x8e, 0x4d, 0xa1, 0xbc] : Block) (4 * 3) = 0x8e ∧
      byteAt (#v[0, 0, 0, 0, 0, 0, 0, 0, 0, 0, 0, 0, 0x8e, 0x4d, 0xa1, 0xbc] : Block) (4 * 3 + 1) = 0x4d ∧
      byteAt (#v[0, 0, 0, 0, 0, 0, 0, 0, 0, 0, 0, 0, 0x8e, 0x4d, 0xa1, 0xbc] : Block) (4 * 3 + 2) = 0xa1 ∧
      byteAt (#v[0, 0, 0, 0, 0, 0, 0, 0, 0, 0, 0, 0, 0x8e, 0x4d, 0xa1, 0xbc] : Block) (4 * 3 + 3) = 0xbc := by
  decide

theorem witness_PrimitivesUndoOneAnother :
    ((withSt counting (keyed 16)).st = counting ∧ (withSt counting (keyed 16)).kvalid = true ∧
      (10 : Byte).toNat ≤ (withSt counting (keyed 16)).nr.toNat ∧
      exec (.addrk 10) (withSt counting (keyed 16)) =
        .next (nextOf (exec (.addrk 10) (withSt counting (keyed 16)))) ∧
      exec (.addrk 10) (nextOf (exec (.addrk 10) (withSt counting (keyed 16)))) =
        .next (nextOf (exec (.addrk 10) (nextOf (exec (.addrk 10) (withSt counting (keyed 16))))))) ∧
      3 < 4 ∧ ∀ k, k < 4 → byteAt (Vector.replicate 16 0xff : Block) (4 * 3 + k) = 0xff :=
  ⟨⟨rfl, by decide +kernel, by decide +kernel, next_nextOf (by decide +kernel), next_nextOf (by decide +kernel)⟩,
    by decide⟩

/-- The schedule of V11 in a state, as the vector clauses of ENCB and DECB ask for it. -/
theorem schedule_of_keyed : ∀ w, w < 44 →
    scheduleWord (keyed 16).ks w = wordAt (expand ((List.range 16).map (BitVec.ofNat 8))) w := by decide +kernel

theorem witness_EncbEncryptsSt :
    State.reset.kvalid = false ∧
      (withSt counting (keyed 16)).kvalid = true ∧ (withSt counting (keyed 16)).nr = 10 ∧
      (∀ w, w < 44 → scheduleWord (withSt counting (keyed 16)).ks w =
        wordAt (expand ((List.range 16).map (BitVec.ofNat 8))) w) ∧
      (withSt counting (keyed 16)).st =
        #v[0x00, 0x11, 0x22, 0x33, 0x44, 0x55, 0x66, 0x77, 0x88, 0x99, 0xaa, 0xbb, 0xcc, 0xdd, 0xee, 0xff] :=
  ⟨rfl, by decide +kernel, by decide +kernel, schedule_of_keyed, by decide⟩

/-- The ciphertext of V3. -/
def cipherBlock : Block :=
  #v[0x69, 0xc4, 0xe0, 0xd8, 0x6a, 0x7b, 0x04, 0x30, 0xd8, 0xcd, 0xb7, 0x80, 0x70, 0xb4, 0xc5, 0x5a]

theorem witness_DecbDecryptsSt :
    State.reset.kvalid = false ∧
      (withSt cipherBlock (keyed 16)).kvalid = true ∧ (withSt cipherBlock (keyed 16)).nr = 10 ∧
      (∀ w, w < 44 → scheduleWord (withSt cipherBlock (keyed 16)).ks w =
        wordAt (expand ((List.range 16).map (BitVec.ofNat 8))) w) ∧
      (withSt cipherBlock (keyed 16)).st =
        #v[0x69, 0xc4, 0xe0, 0xd8, 0x6a, 0x7b, 0x04, 0x30, 0xd8, 0xcd, 0xb7, 0x80, 0x70, 0xb4, 0xc5, 0x5a] :=
  ⟨rfl, by decide +kernel, by decide +kernel, schedule_of_keyed, rfl⟩

theorem witness_BlockCommandsEqualPrimitives : (keyed 32).kvalid = true := by decide +kernel

theorem witness_PadAppendsPadding :
    ({ State.reset with ilen := 64 } : State).ilen.toNat ≤ ({ State.reset with ilen := 64 } : State).cfg.bufMax ∧
      ({ State.reset with ilen := 65 } : State).cfg.bufMax < ({ State.reset with ilen := 65 } : State).ilen.toNat ∧
      63 < 64 ∧ (64 ≤ 64 ∧ 64 < 16 * (64 / 16 + 1)) := by decide

theorem witness_StripChecksThenRemovesPadding :
    ({ State.reset with ilen := 81 } : State).cfg.bufMax + 16 < ({ State.reset with ilen := 81 } : State).ilen.toNat ∧
      (({ State.reset with ilen := 79 } : State).ilen.toNat ≤ State.reset.cfg.bufMax + 16 ∧
        ({ State.reset with ilen := 79 } : State).ilen.toNat % 16 ≠ 0) ∧
      State.reset.ilen = 0 ∧
      (∀ bs ∈ [List.replicate 16 (0x11 : Byte), List.replicate 15 0x0f ++ [0x10], List.replicate 16 0x10],
        (loaded bs State.reset).ilen.toNat ≤ State.reset.cfg.bufMax + 16 ∧
          (loaded bs State.reset).ilen.toNat % 16 = 0 ∧ (loaded bs State.reset).ilen ≠ 0) ∧
      16 < (ibufByte (loaded (List.replicate 16 0x11) State.reset) 15).toNat ∧
      (ibufByte (loaded (List.replicate 15 0x0f ++ [0x10]) State.reset) 15).toNat = 16 ∧
      (ibufByte (loaded (List.replicate 15 0x0f ++ [0x10]) State.reset) 0).toNat ≠ 16 ∧
      ∀ j, 16 - 16 ≤ j → j < 16 → (ibufByte (loaded (List.replicate 16 0x10) State.reset) j).toNat = 16 := by
  refine ⟨by decide, by decide, rfl, by decide, by decide, by decide, by decide, ?_⟩
  have h : ∀ j : Fin 16, (ibufByte (loaded (List.replicate 16 0x10) State.reset) j.val).toNat = 16 := by decide
  exact fun j _ hj => h ⟨j, hj⟩

/-- PAD of three bytes, and a core whose input buffer holds its output. -/
def padded : State := nextOf (exec .pad (loaded [0x61, 0x62, 0x63] State.reset))

theorem pad_padded : exec .pad (loaded [0x61, 0x62, 0x63] State.reset) = .next padded := by
  unfold padded
  exact next_nextOf (by decide +kernel)

theorem witness_StripUndoesPad :
    (loaded [0x61, 0x62, 0x63] State.reset).ilen.toNat ≤ (loaded [0x61, 0x62, 0x63] State.reset).cfg.bufMax ∧
      exec .pad (loaded [0x61, 0x62, 0x63] State.reset) = .next padded ∧
      (loaded (outputBytes padded) State.reset).cfg = (loaded [0x61, 0x62, 0x63] State.reset).cfg ∧
      (loaded (outputBytes padded) State.reset).ilen = padded.olen ∧
      inputBytes (loaded (outputBytes padded) State.reset) = outputBytes padded :=
  ⟨by decide, pad_padded, rfl, by decide +kernel, by decide +kernel⟩

theorem witness_CbcEncryptChainsBlocks : 0 ≤ counting.toList.length / 16 ∧ 1 ≤ counting.toList.length / 16 := by
  decide

theorem witness_CbcDecryptChainsBlocks :
    (cipherC.take 7).length % 16 ≠ 0 ∧ cipherC.length % 16 = 0 ∧ 1 < cipherC.length / 16 := by decide

theorem witness_CbcencOutputsCiphertext :
    State.reset.kvalid = false ∧
      ({ keyed 16 with ilen := 64 } : State).kvalid = true ∧
      ({ keyed 16 with ilen := 64 } : State).ilen.toNat ≤ ({ keyed 16 with ilen := 64 } : State).cfg.bufMax ∧
      ({ keyed 16 with ilen := 65 } : State).kvalid = true ∧
      ({ keyed 16 with ilen := 65 } : State).cfg.bufMax < ({ keyed 16 with ilen := 65 } : State).ilen.toNat ∧
      (schedule (keyed 16)).rounds = 10 ∧
      ∀ w, w < 44 →
        scheduleWord (schedule (keyed 16)).words w = wordAt (expand ((List.range 16).map (BitVec.ofNat 8))) w :=
  ⟨rfl, by decide +kernel, by decide +kernel, by decide +kernel, by decide +kernel, by decide +kernel,
    schedule_of_keyed⟩

theorem witness_CbcdecRejectsRaggedLength :
    ({ keyed 16 with ilen := 79 } : State).ilen.toNat % 16 ≠ 0 ∧
      ({ keyed 16 with ilen := 81 } : State).ilen.toNat % 16 ≠ 0 ∧
      ({ State.reset with ilen := 81 } : State).ilen.toNat % 16 ≠ 0 := by decide +kernel

/-- CBCENC of the source's plaintext, and a core with the same schedule and IV whose input buffer holds its output. -/
def encrypted : State := nextOf (exec .cbcenc (loaded counting.toList keyedIv))

theorem cbcenc_encrypted : exec .cbcenc (loaded counting.toList keyedIv) = .next encrypted := by
  unfold encrypted
  exact next_nextOf (by decide +kernel)

theorem witness_CbcCommandsIgnoreLeftovers :
    ({ keyedIv with st := counting, chain := counting, phase := .done, blk := 1, olen := 5, res := 7, err := 1 } : State) =
      { keyedIv with
        st := counting, chain := counting, phase := .done, blk := 1, obuf := keyedIv.obuf, olen := 5, res := 7
        err := 1, errInfo := keyedIv.errInfo } := rfl

theorem witness_PhaseAndBlkFollowCbc :
    (exec .cbcenc (loaded counting.toList keyedIv) = .next encrypted ∧ encrypted.err = 0) ∧
      (exec .cbcdec State.reset = .next (nextOf (exec .cbcdec State.reset)) ∧
        (nextOf (exec .cbcdec State.reset)).err ≠ 0) ∧
      exec .pad padded = .next (nextOf (exec .pad padded)) :=
  ⟨⟨cbcenc_encrypted, by decide +kernel⟩,
    ⟨next_nextOf (by decide +kernel), by decide +kernel⟩, next_nextOf (by decide +kernel)⟩

theorem witness_IvgenLoadsDraw : 15 < 16 := by decide

theorem witness_IvChangesOnlyByHostOrIvgen :
    step (facing (.dataWrite 2 0 1) State.reset) = .next (nextOf (step (facing (.dataWrite 2 0 1) State.reset))) ∧
      (∀ rest, (facing (.dataWrite 2 0 1) State.reset).inputs ≠ .reset :: rest) ∧
      (∀ rest, (facing (.dataWrite 2 0 1) State.reset).inputs ≠ .issue 0x00000070 :: rest) ∧
      ∀ j v rest, (facing (.dataWrite 2 0 1) State.reset).inputs ≠ .dataWrite 1 j v :: rest :=
  ⟨next_nextOf (by decide +kernel), by simp [facing], by simp [facing], by simp [facing]⟩

theorem witness_NoScheduleReportedFirst : State.reset.kvalid = false := rfl

/-- One state for each row of the table: success, and the nine errors of commands that decode. -/
theorem witness_ErrorCodesAndCauses :
    (nextOf (exec .subb State.reset)).err = 0 ∧ (nextOf (exec .kexp State.reset)).err = 0x01 ∧
      (nextOf (exec .cbcdec { keyed 16 with ilen := 7 })).err = 0x02 ∧
      (nextOf (exec .strip { State.reset with ilen := 8 })).err = 0x03 ∧
      (nextOf (exec .strip State.reset)).err = 0x04 ∧
      (nextOf (exec .strip (loaded (List.replicate 16 0) State.reset))).err = 0x05 ∧
      (nextOf (exec .strip (loaded (List.replicate 15 0 ++ [2]) State.reset))).err = 0x06 ∧
      (nextOf (exec .encb State.reset)).err = 0x81 ∧ (nextOf (exec (.addrk 255) (keyed 16))).err = 0x82 ∧
      (nextOf (exec .pad { State.reset with ilen := 65 })).err = 0x83 := by decide +kernel

theorem witness_FailureChangesOnlyAbortRegisters :
    (exec .cbcdec State.reset = .next (nextOf (exec .cbcdec State.reset)) ∧
        (nextOf (exec .cbcdec State.reset)).err ≠ 0) ∧
      (exec .strip State.reset = .next (nextOf (exec .strip State.reset)) ∧
        (nextOf (exec .strip State.reset)).err ≠ 0) ∧
      exec .kexp State.reset = .next (nextOf (exec .kexp State.reset)) ∧
        (nextOf (exec .kexp State.reset)).err ≠ 0 :=
  ⟨⟨next_nextOf (by decide +kernel), by decide +kernel⟩, ⟨next_nextOf (by decide +kernel), by decide +kernel⟩,
    next_nextOf (by decide +kernel), by decide +kernel⟩

theorem witness_CommandsLeaveHostInputs :
    exec .pad (loaded [0x61, 0x62, 0x63] State.reset) = .next padded ∧
      (∀ a b, Instr.pad ≠ .gfmul a b) ∧ Instr.pad ≠ .ivgen :=
  ⟨pad_padded, by simp, by decide⟩

theorem witness_StepKeepsInvariant :
    CoreSound (facing (.issue 0x00000060) State.reset) ∧
      step (facing (.issue 0x00000060) State.reset) =
        .next (nextOf (step (facing (.issue 0x00000060) State.reset))) := by
  refine ⟨⟨.inl ⟨rfl, rfl, rfl⟩, fun h => ?_, ⟨rfl, fun _ _ => rfl⟩, ⟨rfl, fun _ _ => rfl⟩,
    ⟨by simp [facing, State.reset], by simp [facing, State.reset]⟩, .inl ⟨rfl, rfl⟩, ⟨by decide, fun _ => rfl⟩⟩,
    next_nextOf (by decide +kernel)⟩
  simp [facing, State.reset] at h

theorem witness_HiddenStoresNeverShow :
    SameToHost (facing .reset State.reset)
        { facing .reset State.reset with ks := Vector.replicate 60 (Vector.replicate 4 0xff), obuf := [(0, 0xff)] } ∧
      step (facing .reset State.reset) = .next (nextOf (step (facing .reset State.reset))) := by
  refine ⟨⟨rfl, fun h => ?_, fun i hi => ?_⟩, rfl⟩
  · simp [facing, State.reset] at h
  · simp [facing, State.reset] at hi

theorem witness_PublicOperationsReturnTheirResults :
    ((List.replicate 32 (0 : Byte)).length = 32 ∧ (List.replicate 32 (0 : Byte)).length < 2 ^ 32) ∧
      (¬((List.replicate 33 (0 : Byte)).length = 16 ∨ (List.replicate 33 (0 : Byte)).length = 24 ∨
        (List.replicate 33 (0 : Byte)).length = 32) ∧ (List.replicate 33 (0 : Byte)).length < 2 ^ 32) ∧
      ((List.replicate 64 (0 : Byte)).length ≤ (keyed 16).cfg.bufMax ∧ (keyed 16).kvalid = true) ∧
      ((keyed 16).cfg.bufMax < (List.replicate 80 (0 : Byte)).length ∧
        (List.replicate 80 (0 : Byte)).length ≤ (keyed 16).cfg.bufMax + 16) ∧
      State.reset.kvalid = false := by decide +kernel

/-! ### Whole schedules and block encryptions: the slow checks, last -/

/-- V12. -/
theorem test_kexp_192 :
    scheduleWord (keyed 24).ks 48 = #v[0xa4, 0x97, 0x0a, 0x33] ∧ (keyed 24).nk = 6 ∧ (keyed 24).nr = 12 := by
  decide +kernel

/-- V13: the extra SubWord step and the last word. -/
theorem test_kexp_256 :
    scheduleWord (keyed 32).ks 12 = #v[0x16, 0x51, 0xa8, 0xcd] ∧
      scheduleWord (keyed 32).ks 59 = #v[0x6d, 0x68, 0xde, 0x36] := by decide +kernel

/-- V17, 24-byte key. -/
theorem test_encb_192 :
    (nextOf (exec .encb (withSt counting (keyed 24)))).st =
      #v[0xdd, 0xa9, 0x7c, 0xa4, 0x86, 0x4c, 0xdf, 0xe0, 0x6e, 0xaf, 0x70, 0xa0, 0xec, 0x0d, 0x71, 0x91] := by
  decide +kernel

/-- V17, 32-byte key. -/
theorem test_decb_256 :
    (nextOf (exec .decb (withSt
      #v[0x8e, 0xa2, 0xb7, 0xca, 0x51, 0x67, 0x45, 0xbf, 0xea, 0xfc, 0x49, 0x90, 0x4b, 0x49, 0x60, 0x89]
      (keyed 32)))).st = counting := by decide +kernel

/-- V19, first row, and STATUS 0x09 after it. -/
theorem test_cbcenc_source_vector :
    outputBytes (nextOf (exec .cbcenc (loaded counting.toList keyedIv))) = cipherC ∧
      statusByte (nextOf (exec .cbcenc (loaded counting.toList keyedIv))) = 0x09 := by decide +kernel

/-- V19, first row of CBCDEC. -/
theorem test_cbcdec_source_vector :
    outputBytes (nextOf (exec .cbcdec (loaded cipherC keyedIv))) = counting.toList ∧
      (nextOf (exec .cbcdec (loaded cipherC keyedIv))).blk = 2 := by decide +kernel

/-- V19, third row of CBCDEC: the last plaintext byte is no padding length, and ERRINFO holds it. -/
theorem test_cbcdec_bad_padding :
    (nextOf (exec .cbcdec (loaded (cipherC.take 16) keyedIv))).err = 0x05 ∧
      (nextOf (exec .cbcdec (loaded (cipherC.take 16) keyedIv))).errInfo = 0xff := by decide +kernel

theorem witness_CbcdecOutputsPlaintextOrAborts :
    ((loaded cipherC keyedIv).kvalid = true ∧
      (loaded cipherC keyedIv).ilen.toNat ≤ (loaded cipherC keyedIv).cfg.bufMax + 16 ∧
      cbcDecrypt ⟨(loaded cipherC keyedIv).ks, (loaded cipherC keyedIv).nr.toNat⟩ (loaded cipherC keyedIv).iv
        (inputBytes (loaded cipherC keyedIv)) = .ok counting.toList) ∧
    ((loaded [] keyedIv).kvalid = true ∧ (loaded [] keyedIv).ilen.toNat ≤ (loaded [] keyedIv).cfg.bufMax + 16 ∧
      cbcDecrypt ⟨(loaded [] keyedIv).ks, (loaded [] keyedIv).nr.toNat⟩ (loaded [] keyedIv).iv
        (inputBytes (loaded [] keyedIv)) = .error ⟨.emptyBuffer, 0⟩) ∧
    ({ keyed 16 with ilen := 81 } : State).kvalid = true ∧
    ({ keyed 16 with ilen := 81 } : State).cfg.bufMax + 16 < ({ keyed 16 with ilen := 81 } : State).ilen.toNat := by
  refine ⟨⟨?_, ?_, ?_⟩, ⟨?_, ?_, ?_⟩, ?_, ?_⟩ <;> decide +kernel

theorem witness_CbcRoundTrip :
    (loaded counting.toList keyedIv).kvalid = true ∧
      (loaded counting.toList keyedIv).ilen.toNat ≤ (loaded counting.toList keyedIv).cfg.bufMax ∧
      exec .cbcenc (loaded counting.toList keyedIv) = .next encrypted ∧
      (loaded cipherC keyedIv).kvalid = true ∧ (loaded cipherC keyedIv).ks = (loaded counting.toList keyedIv).ks ∧
      (loaded cipherC keyedIv).nr = (loaded counting.toList keyedIv).nr ∧
      (loaded cipherC keyedIv).iv = (loaded counting.toList keyedIv).iv ∧
      (loaded cipherC keyedIv).cfg = (loaded counting.toList keyedIv).cfg ∧
      (loaded cipherC keyedIv).ilen = encrypted.olen ∧
      inputBytes (loaded cipherC keyedIv) = outputBytes encrypted := by
  refine ⟨?_, ?_, cbcenc_encrypted, ?_, rfl, rfl, rfl, rfl, ?_, ?_⟩
  · decide +kernel
  · decide +kernel
  · decide +kernel
  · decide +kernel
  · rw [encrypted, test_cbcenc_source_vector.1]
    decide +kernel

end Sys2Proof.Tests
end

section
/-! SUPPORT. The effect of a command, apart from how it ends: a failure of 60_exceptions.md R221, or one of six ways to
write the state. `exec_eq_endCommand` ties the effect to `exec`, and `allowed_of_commandEffect` says once which command has
which effect, and with what bounds. -/

namespace Sys2Proof.Machine

/-- How a command that succeeds writes the state. -/
inductive Effect where
  /-- ST becomes this block: the round primitives, ENCB, DECB. -/
  | writeSt (b : Block)
  /-- RES becomes this byte: GFMUL. -/
  | writeRes (v : Byte)
  /-- KS, NK, NR and KVALID become the schedule of the key: KEXP. -/
  | loadSchedule
  /-- IV becomes the next draw: IVGEN. -/
  | loadDraw
  /-- OBUF and OLEN become these bytes: PAD, STRIP. -/
  | output (out : List Byte)
  /-- A run of CBCENC or CBCDEC with this output, last chain value and number of blocks. -/
  | chained (out : List Byte) (last : Block) (blocks : Nat)

/-- The state a successful command leaves. -/
def Effect.apply : Effect → State → State
  | .writeSt b, s => succeed { s with st := b }
  | .writeRes v, s => succeed { s with res := v }
  | .loadSchedule, s => succeed { s with
      ks := writeSchedule (expand (keyBytes s)) s.ks
      nk := BitVec.ofNat 8 (s.keyLen.toNat / 4)
      nr := BitVec.ofNat 8 (roundsOf (s.keyLen.toNat / 4))
      kvalid := true }
  | .loadDraw, s => succeed { s with iv := drawBlock s.draws, draws := s.draws + 1 }
  | .output out, s => succeed (setOutput out s)
  | .chained out last blocks, s =>
    cbcFinish (setOutput out { s with chain := last, blk := BitVec.ofNat 32 blocks })

/-- Which registers the abort of a command clears (R240). -/
def abortScope : Instr → AbortScope
  | .cbcenc | .cbcdec => .chaining
  | .pad | .strip => .output
  | _ => .errorOnly

/-- The check of 60_exceptions.md R231 before an effect. -/
def needSchedule (s : State) (r : Except Failure Effect) : Except Failure Effect :=
  if s.kvalid = false then .error ⟨.noKeySchedule, 0⟩ else r

/-- The check of R232 before an effect: the input is no longer than `limit`. -/
def needLength (limit : Nat) (s : State) (r : Except Failure Effect) : Except Failure Effect :=
  if limit < s.ilen.toNat then .error ⟨.lengthOverflow, s.ilen⟩ else r

/-- What a command does in a state: its failure or its effect. -/
def commandEffect : Instr → State → Except Failure Effect
  | .gfmul a b, _ => .ok (.writeRes (multiply a b))
  | .kexp, s =>
    if s.keyLen ≠ 16 ∧ s.keyLen ≠ 24 ∧ s.keyLen ≠ 32 then .error ⟨.invalidKeySize, s.keyLen⟩ else .ok .loadSchedule
  | .subb, s => .ok (.writeSt (subBytes s.st))
  | .shrow, s => .ok (.writeSt (shiftRows s.st))
  | .mixc, s => .ok (.writeSt (mixColumns s.st))
  | .addrk r, s => needSchedule s
      (if s.nr < r then .error ⟨.badRoundIndex, r.zeroExtend 32⟩
      else .ok (.writeSt (addRoundKey s.st (roundKey (schedule s) r.toNat))))
  | .isubb, s => .ok (.writeSt (invSubBytes s.st))
  | .ishrow, s => .ok (.writeSt (invShiftRows s.st))
  | .imixc, s => .ok (.writeSt (invMixColumns s.st))
  | .encb, s => needSchedule s (.ok (.writeSt (encrypt (schedule s) s.st)))
  | .decb, s => needSchedule s (.ok (.writeSt (decrypt (schedule s) s.st)))
  | .cbcenc, s => needSchedule s (needLength s.cfg.bufMax s
      (.ok (.chained (cbcEncrypt (schedule s) s.iv (inputBytes s))
        (blockAt (cbcEncrypt (schedule s) s.iv (inputBytes s)) (s.ilen.toNat / 16)) (s.ilen.toNat / 16 + 1))))
  | .cbcdec, s => needSchedule s (needLength (bufSize s) s
      ((cbcDecrypt (schedule s) s.iv (inputBytes s)).map fun out =>
        .chained out (blockAt (inputBytes s) (s.ilen.toNat / 16 - 1)) (s.ilen.toNat / 16)))
  | .pad, s => needLength s.cfg.bufMax s (.ok (.output (padInput (inputBytes s))))
  | .strip, s => needLength (bufSize s) s ((stripOutput (inputBytes s)).map .output)
  | .ivgen, _ => .ok .loadDraw

/-- The state after a command with this failure or effect. -/
def endCommand (i : Instr) : Except Failure Effect → State → State
  | .error f, s => raise (abortScope i) f s
  | .ok e, s => e.apply s

theorem endCommand_needSchedule (i : Instr) (r : Except Failure Effect) (s : State) :
    endCommand i (needSchedule s r) s =
      if s.kvalid = false then raise (abortScope i) ⟨.noKeySchedule, 0⟩ s else endCommand i r s := by
  simp only [needSchedule]
  split <;> rfl

theorem endCommand_needLength (i : Instr) (limit : Nat) (r : Except Failure Effect) (s : State) :
    endCommand i (needLength limit s r) s =
      if limit < s.ilen.toNat then raise (abortScope i) ⟨.lengthOverflow, s.ilen⟩ s else endCommand i r s := by
  simp only [needLength]
  split <;> rfl

/-- Every command ends, with its failure or its effect. -/
theorem exec_eq_endCommand (i : Instr) (s : State) : exec i s = .next (endCommand i (commandEffect i s) s) := by
  cases i with
  | kexp =>
    simp only [exec, execKexp, commandEffect]
    split <;> rfl
  | addrk r =>
    simp only [exec, execAddrk, commandEffect, endCommand_needSchedule]
    repeat' split
    all_goals rfl
  | encb | decb =>
    simp only [exec, execEncb, execDecb, withSchedule, commandEffect, endCommand_needSchedule]
    split <;> rfl
  | cbcenc =>
    simp only [exec_cbcenc, commandEffect, endCommand_needSchedule, endCommand_needLength]
    repeat' split
    all_goals rfl
  | cbcdec =>
    simp only [exec_cbcdec, commandEffect, endCommand_needSchedule, endCommand_needLength]
    split
    · rfl
    · split
      · rfl
      · cases cbcDecrypt (schedule s) s.iv (inputBytes s) <;> rfl
  | pad =>
    simp only [exec_pad, commandEffect, endCommand_needLength]
    split <;> rfl
  | strip =>
    simp only [exec_strip, commandEffect, endCommand_needLength]
    split
    · rfl
    · cases stripOutput (inputBytes s) <;> rfl
  | _ => rfl

/-- A command's next state, inverted. -/
theorem eq_endCommand_of_exec {i : Instr} {s t : State} (h : exec i s = .next t) :
    t = endCommand i (commandEffect i s) s := by
  rw [exec_eq_endCommand] at h
  injection h with h
  exact h.symm

theorem needSchedule_eq_ok {s : State} {r : Except Failure Effect} {e : Effect} :
    needSchedule s r = .ok e ↔ s.kvalid = true ∧ r = .ok e := by
  cases h : s.kvalid <;> simp [needSchedule, h]

theorem needSchedule_eq_error {s : State} {r : Except Failure Effect} {f : Failure} :
    needSchedule s r = .error f ↔
      (s.kvalid = false ∧ f = ⟨.noKeySchedule, 0⟩) ∨ (s.kvalid = true ∧ r = .error f) := by
  cases h : s.kvalid <;> simp [needSchedule, h, eq_comm]

theorem needLength_eq_ok {limit : Nat} {s : State} {r : Except Failure Effect} {e : Effect} :
    needLength limit s r = .ok e ↔ s.ilen.toNat ≤ limit ∧ r = .ok e := by
  by_cases hl : limit < s.ilen.toNat
  · simp [needLength, hl, Nat.not_le.2 hl]
  · simp [needLength, hl, Nat.not_lt.1 hl]

theorem needLength_eq_error {limit : Nat} {s : State} {r : Except Failure Effect} {f : Failure} :
    needLength limit s r = .error f ↔
      (limit < s.ilen.toNat ∧ f = ⟨.lengthOverflow, s.ilen⟩) ∨ (s.ilen.toNat ≤ limit ∧ r = .error f) := by
  by_cases hl : limit < s.ilen.toNat
  · simp [needLength, hl, Nat.not_le.2 hl, eq_comm]
  · simp [needLength, hl, Nat.not_lt.1 hl]

/-- How many blocks a run of CBCENC or CBCDEC counts (10_state.md R38). -/
def chainedBlocks (i : Instr) (s : State) : Nat :=
  if i = .cbcenc then s.ilen.toNat / 16 + 1 else s.ilen.toNat / 16

/-- A key length KEXP accepts (42_key_schedule.md R138). -/
def KeyLenLegal (s : State) : Prop :=
  s.keyLen = 16 ∨ s.keyLen = 24 ∨ s.keyLen = 32

/-- The commands that write ST when they succeed, and nothing else of the core but the result. -/
def stMnemonics : List Mnemonic :=
  [.subb, .shrow, .mixc, .addrk, .isubb, .ishrow, .imixc, .encb, .decb]

/-- What an effect says of the command that has it, and of the state it starts from. -/
def Effect.Allowed (i : Instr) (s : State) : Effect → Prop
  | .writeSt _ => i.mnemonic ∈ stMnemonics
  | .writeRes _ => ∃ a b, i = .gfmul a b
  | .loadSchedule => i = .kexp ∧ KeyLenLegal s
  | .loadDraw => i = .ivgen
  | .output out => (i = .pad ∨ i = .strip) ∧ out.length ≤ bufSize s
  | .chained out _ blocks =>
    (i = .cbcenc ∨ i = .cbcdec) ∧ out.length ≤ bufSize s ∧ blocks = chainedBlocks i s ∧ blocks ≠ 0

/-- Each command has only the effects of its kind, with outputs that fit the buffer. -/
theorem allowed_of_commandEffect {i : Instr} {s : State} {e : Effect} (h : commandEffect i s = .ok e) :
    e.Allowed i s := by
  cases i with
  | gfmul a b => cases h; exact ⟨a, b, rfl⟩
  | kexp =>
    simp only [commandEffect] at h
    split at h
    · cases h
    · cases h
      exact ⟨rfl, by unfold KeyLenLegal; tauto⟩
  | addrk r =>
    obtain ⟨-, h⟩ := needSchedule_eq_ok.1 h
    split at h <;> cases h
    simp [Effect.Allowed, Instr.mnemonic, stMnemonics]
  | encb | decb =>
    obtain ⟨-, h⟩ := needSchedule_eq_ok.1 h
    cases h
    simp [Effect.Allowed, Instr.mnemonic, stMnemonics]
  | cbcenc =>
    obtain ⟨-, h⟩ := needSchedule_eq_ok.1 h
    obtain ⟨hlen, h⟩ := needLength_eq_ok.1 h
    cases h
    refine ⟨.inl rfl, ?_, rfl, by omega⟩
    rw [length_cbcEncrypt, length_inputBytes]
    simp only [bufSize]
    omega
  | cbcdec =>
    obtain ⟨-, h⟩ := needSchedule_eq_ok.1 h
    obtain ⟨hlen, h⟩ := needLength_eq_ok.1 h
    cases hd : cbcDecrypt (schedule s) s.iv (inputBytes s) with
    | error f => rw [hd] at h; cases h
    | ok out =>
      rw [hd] at h
      cases h
      obtain ⟨h1, -, h2⟩ := cbcDecrypt_ok _ _ _ _ hd
      rw [length_inputBytes] at h1 h2
      exact ⟨.inr rfl, by omega, rfl, h2⟩
  | pad =>
    obtain ⟨hlen, h⟩ := needLength_eq_ok.1 h
    cases h
    refine ⟨.inl rfl, ?_⟩
    rw [length_padInput, length_inputBytes]
    simp only [bufSize]
    omega
  | strip =>
    obtain ⟨hlen, h⟩ := needLength_eq_ok.1 h
    cases hd : stripOutput (inputBytes s) with
    | error f => rw [hd] at h; cases h
    | ok out =>
      rw [hd] at h
      cases h
      have h1 := (stripOutput_ok _ _ hd).1
      rw [length_inputBytes] at h1
      exact ⟨.inr rfl, by omega⟩
  | ivgen => cases h; rfl
  | _ => cases h; simp [Effect.Allowed, Instr.mnemonic, stMnemonics]

/-- A CBC command that succeeds has the effect `chained`, with its number of blocks. -/
theorem Effect.Allowed.eq_chained {i : Instr} {s : State} {e : Effect} (he : e.Allowed i s)
    (hi : i = .cbcenc ∨ i = .cbcdec) : ∃ out last, e = .chained out last (chainedBlocks i s) := by
  cases e with
  | chained out last blocks => exact ⟨out, last, by rw [he.2.2.1]⟩
  | _ => rcases hi with rfl | rfl <;> simp [Effect.Allowed, Instr.mnemonic, stMnemonics] at he

theorem stripOutput_error_kind {buf : List Byte} {f : Failure} (h : stripOutput buf = .error f) :
    f.kind ≠ .keyExpansionFailure := by
  rcases stripOutput_error buf f h with ⟨rfl, -⟩ | ⟨rfl, -⟩ | ⟨l, rfl, -⟩ | ⟨l, rfl, -⟩ <;> nofun

theorem cbcDecrypt_error_kind {k : Schedule} {iv : Block} {c : List Byte} {f : Failure}
    (h : cbcDecrypt k iv c = .error f) : f.kind ≠ .keyExpansionFailure := by
  rcases cbcDecrypt_error k iv c f h with ⟨rfl, -⟩ | ⟨rfl, -⟩ | ⟨l, rfl, -⟩ | ⟨l, rfl, -⟩ <;> nofun

/-- No command raises the reserved kind (60_exceptions.md R227). -/
theorem commandEffect_error_kind {i : Instr} {s : State} {f : Failure} (h : commandEffect i s = .error f) :
    f.kind ≠ .keyExpansionFailure := by
  cases i with
  | kexp =>
    simp only [commandEffect] at h
    split at h <;> cases h
    nofun
  | addrk r =>
    rcases needSchedule_eq_error.1 h with ⟨-, rfl⟩ | ⟨-, h⟩
    · nofun
    · split at h <;> cases h
      nofun
  | encb | decb =>
    rcases needSchedule_eq_error.1 h with ⟨-, rfl⟩ | ⟨-, h⟩
    · nofun
    · cases h
  | cbcenc =>
    rcases needSchedule_eq_error.1 h with ⟨-, rfl⟩ | ⟨-, h⟩
    · nofun
    · rcases needLength_eq_error.1 h with ⟨-, rfl⟩ | ⟨-, h⟩
      · nofun
      · cases h
  | cbcdec =>
    rcases needSchedule_eq_error.1 h with ⟨-, rfl⟩ | ⟨-, h⟩
    · nofun
    · rcases needLength_eq_error.1 h with ⟨-, rfl⟩ | ⟨-, h⟩
      · nofun
      · cases hd : cbcDecrypt (schedule s) s.iv (inputBytes s) with
        | error g => rw [hd] at h; cases h; exact cbcDecrypt_error_kind hd
        | ok out => rw [hd] at h; cases h
  | pad =>
    rcases needLength_eq_error.1 h with ⟨-, rfl⟩ | ⟨-, h⟩
    · nofun
    · cases h
  | strip =>
    rcases needLength_eq_error.1 h with ⟨-, rfl⟩ | ⟨-, h⟩
    · nofun
    · cases hd : stripOutput (inputBytes s) with
      | error g => rw [hd] at h; cases h; exact stripOutput_error_kind hd
      | ok out => rw [hd] at h; cases h
  | _ => cases h

/-- What every effect leaves (R24, R32), and the result of success (R241). -/
@[simp] theorem Effect.apply_fields (e : Effect) (s : State) :
    (e.apply s).key = s.key ∧ (e.apply s).keyLen = s.keyLen ∧ (e.apply s).ibuf = s.ibuf ∧
      (e.apply s).ilen = s.ilen ∧ (e.apply s).err = 0 ∧ (e.apply s).errInfo = 0 ∧ (e.apply s).cfg = s.cfg ∧
      (e.apply s).resets = s.resets ∧ (e.apply s).inputs = s.inputs ∧ (e.apply s).responses = s.responses := by
  cases e <;> simp [Effect.apply]

/-- Only GFMUL's effect writes RES (10_state.md R28). -/
theorem Effect.apply_res {i : Instr} {s : State} {e : Effect} (he : e.Allowed i s) (h : ∀ a b, i ≠ .gfmul a b) :
    (e.apply s).res = s.res := by
  cases e with
  | writeRes v => obtain ⟨a, b, hi⟩ := he; exact absurd hi (h a b)
  | _ => simp [Effect.apply]

/-- Only KEXP's effect writes the schedule (42_key_schedule.md R140). -/
theorem Effect.apply_schedule {e : Effect} (s : State) (h : e ≠ .loadSchedule) :
    (e.apply s).ks = s.ks ∧ (e.apply s).nk = s.nk ∧ (e.apply s).nr = s.nr ∧ (e.apply s).kvalid = s.kvalid := by
  cases e with
  | loadSchedule => exact absurd rfl h
  | _ => simp [Effect.apply]

/-- Only IVGEN's effect writes IV and uses up a draw (47_iv.md R211, R212). -/
theorem Effect.apply_iv_draws {i : Instr} {s : State} {e : Effect} (he : e.Allowed i s) (h : i ≠ .ivgen) :
    (e.apply s).iv = s.iv ∧ (e.apply s).draws = s.draws := by
  cases e with
  | loadDraw => exact absurd he h
  | _ => simp [Effect.apply]

/-- Only the CBC commands' effect writes PHASE and BLK (10_state.md R37, R38). -/
theorem Effect.apply_phase_blk {i : Instr} {s : State} {e : Effect} (he : e.Allowed i s)
    (h : ¬(i = .cbcenc ∨ i = .cbcdec)) : (e.apply s).phase = s.phase ∧ (e.apply s).blk = s.blk := by
  cases e with
  | chained out last blocks => exact absurd he.1 h
  | _ => simp [Effect.apply]

/-- An effect leaves the output, or makes it a sequence the buffer holds (10_state.md R33). -/
theorem Effect.apply_output {i : Instr} {s : State} {e : Effect} (he : e.Allowed i s) :
    ((e.apply s).obuf = s.obuf ∧ (e.apply s).olen = s.olen) ∨
      ∃ out, out.length ≤ bufSize s ∧ (e.apply s).obuf = s.obuf.writeBytes 0 out ∧
        (e.apply s).olen = BitVec.ofNat 32 out.length := by
  cases e with
  | output out => exact .inr ⟨out, he.2, by simp [Effect.apply]⟩
  | chained out last blocks => exact .inr ⟨out, he.2.1, by simp [Effect.apply]⟩
  | _ => exact .inl (by simp [Effect.apply])

/-- A command other than IVGEN leaves IV. -/
theorem exec_iv {i : Instr} {s t : State} (h : exec i s = .next t) (hi : i ≠ .ivgen) : t.iv = s.iv := by
  rw [eq_endCommand_of_exec h]
  cases he : commandEffect i s with
  | error f => simp [endCommand]
  | ok e => exact (Effect.apply_iv_draws (allowed_of_commandEffect he) hi).1

end Sys2Proof.Machine
end

section
/-! SUPPORT. What one step can be: waiting, the reset input, a command or an illegal word, or a transaction of the host on
a port; and everything such a transaction can write (10_state.md R43, 20_memory.md R65). -/

namespace Sys2Proof.Machine

/-- A step, inverted: the core waits, or serves the oldest event. -/
theorem step_inv {s t : State} (h : step s = .next t) :
    (s.inputs = [] ∧ t = s) ∨
      ∃ e rest, s.inputs = e :: rest ∧ serve e { s with inputs := rest } = .next t := by
  cases hs : s.inputs with
  | nil =>
    simp only [step, nextEvent, hs] at h
    injection h with h
    exact .inl ⟨rfl, h.symm⟩
  | cons e rest => exact .inr ⟨e, rest, rfl, by rw [← step_cons s e rest hs, h]⟩

/-- What the host's register and data transactions can write: a length register, one byte of a space, or nothing. -/
inductive HostWrite (s : State) : HostEvent → State → Prop
  /-- A read, or a transaction that gets an error response. -/
  | nothing (e : HostEvent) : HostWrite s e s
  /-- `RegWrite` of KEYLEN. -/
  | keyLen (v : Reg32) : HostWrite s (.regWrite 3 v) { s with keyLen := v }
  /-- `RegWrite` of ILEN. -/
  | ilen (v : Reg32) : HostWrite s (.regWrite 4 v) { s with ilen := v }
  /-- `HostWrite` of a byte the space has. -/
  | byte (space i : Nat) (v : Byte) (sp : Space) (hsp : spaceOf space = some sp) (hi : i < spaceSize s.cfg sp) :
    HostWrite s (.dataWrite space i v) (setSpaceByte sp i v s)

/-- A host transaction, inverted: it writes what the host may write and records one answer. -/
theorem serve_transaction {e : HostEvent} {s t : State} (hreset : e ≠ .reset) (hissue : ∀ cw, e ≠ .issue cw)
    (h : serve e s = .next t) : ∃ r u, HostWrite s e u ∧ t = respond r u := by
  cases e with
  | reset => exact absurd rfl hreset
  | issue cw => exact absurd rfl (hissue cw)
  | regRead n =>
    simp only [serve, portRegRead] at h
    split at h <;> cases h <;> exact ⟨_, s, .nothing _, rfl⟩
  | dataRead space i =>
    simp only [serve, portDataRead] at h
    repeat' split at h
    all_goals cases h; exact ⟨_, s, .nothing _, rfl⟩
  | regWrite n v =>
    simp only [serve, portRegWrite] at h
    split at h
    · subst_vars; cases h; exact ⟨_, _, .keyLen v, rfl⟩
    · split at h
      · subst_vars; cases h; exact ⟨_, _, .ilen v, rfl⟩
      · cases h; exact ⟨_, s, .nothing _, rfl⟩
  | dataWrite space i v =>
    simp only [serve, portDataWrite] at h
    split at h
    · cases h; exact ⟨_, s, .nothing _, rfl⟩
    · rename_i sp hsp
      split at h
      · rename_i hi; cases h; exact ⟨_, _, .byte space i v sp hsp hi.1, rfl⟩
      · cases h; exact ⟨_, s, .nothing _, rfl⟩

/-- The frame of a host write (R39, R65): KEY, KEYLEN, ST, IV, IBUF and ILEN at most. -/
theorem HostWrite.frame {s u : State} {e : HostEvent} (h : HostWrite s e u) :
    u = { s with key := u.key, keyLen := u.keyLen, st := u.st, iv := u.iv, ibuf := u.ibuf, ilen := u.ilen } := by
  cases h with
  | byte space i v sp hsp hi => cases sp <;> rfl
  | _ => rfl

/-- A host write to IBUF is of one byte the buffer has. -/
theorem HostWrite.ibuf {s u : State} {e : HostEvent} (h : HostWrite s e u) :
    u.ibuf = s.ibuf ∨ ∃ i v, i < bufSize s ∧ u.ibuf = s.ibuf.write i v := by
  cases h with
  | byte space i v sp hsp hi =>
    cases sp with
    | ibuf => exact .inr ⟨i, v, hi, rfl⟩
    | _ => exact .inl rfl
  | _ => exact .inl rfl

theorem spaceOf_eq_iv {n : Nat} (h : spaceOf n = some .iv) : n = 1 := by
  unfold spaceOf at h
  split at h <;> cases h
  rfl

/-- A host write to IV is through space 1. -/
theorem HostWrite.iv {s u : State} {e : HostEvent} (h : HostWrite s e u) (he : ∀ j v, e ≠ .dataWrite 1 j v) :
    u.iv = s.iv := by
  cases h with
  | byte space i v sp hsp hi =>
    cases sp with
    | iv => exact absurd (by rw [spaceOf_eq_iv hsp]) (he i v)
    | _ => rfl
  | _ => rfl

end Sys2Proof.Machine
end

section
/-! SUPPORT. The decoder has one word for each command (30_encoding.md R91 to R94). -/

namespace Sys2Proof

/-- A command takes its operands from the fields its format uses; the others are zero (R91, R92). -/
theorem fields_command {m : Mnemonic} {a b : Byte} (h : m.format.unusedZero a b = true) :
    (m.command a b).fieldA = a ∧ (m.command a b).fieldB = b := by
  cases m with
  | gfmul => exact ⟨rfl, rfl⟩
  | addrk =>
    have hb : b = 0 := by simpa [Mnemonic.format, Format.unusedZero] using h
    exact ⟨rfl, hb.symm⟩
  | _ =>
    obtain ⟨ha, hb⟩ : a = 0 ∧ b = 0 := by simpa [Mnemonic.format, Format.unusedZero] using h
    exact ⟨ha.symm, hb.symm⟩

/-- A word that decodes is the word of its command: the decoder leaves no bit free (R94). -/
theorem encode_of_decode {cw : Reg32} {i : Instr} (h : decode cw = .ok i) : encode i = cw := by
  obtain ⟨hrsv, hop, hunused, hi⟩ := fields_of_decode h
  obtain ⟨ha, hb⟩ := fields_command hunused
  rw [← hi] at ha hb
  have hword := word_eq_fields cw
  rw [hrsv] at hword
  rw [encode, ha, hb, ← hop]
  exact hword

end Sys2Proof
end

section
/-! SUPPORT. The invariant of the core (R29, R31, R33, R37, R38, R221, R241), part by part: each part holds after reset, and
each operation that ends a command or serves the host keeps it. -/

namespace Sys2Proof.Machine

/-- A state that holds the reset value of R44 in every element of the core; the model's own fields are free. -/
def CoreReset (t : State) : Prop :=
  t = { State.reset with
    cfg := t.cfg, draws := t.draws, resets := t.resets, inputs := t.inputs, responses := t.responses }

theorem coreReset_reset : CoreReset State.reset := rfl

theorem coreReset_hardwareReset (s : State) : CoreReset (hardwareReset s) := rfl

theorem BufferSound.nil (size : Nat) : BufferSound [] size :=
  ⟨rfl, fun _ _ => rfl⟩

theorem BufferSound.write {m : Memory} {size i : Nat} (h : BufferSound m size) (hi : i < size) (v : Byte) :
    BufferSound (m.write i v) size := by
  refine ⟨m.write_wf i v h.1, fun j hj => ?_⟩
  rw [Memory.read_write_other m v (by omega), h.2 j hj]

theorem BufferSound.writeBytes {m : Memory} {size : Nat} {out : List Byte} (h : BufferSound m size)
    (ho : out.length ≤ size) : BufferSound (m.writeBytes 0 out) size := by
  refine ⟨m.writeBytes_wf 0 out h.1, fun j hj => ?_⟩
  rw [Memory.read_writeBytes, if_neg (by omega), h.2 j hj]

theorem CoreReset.coreSound {t : State} (ht : CoreReset t) : CoreSound t := by
  rw [ht]
  exact {
    scheduleLegal := .inl ⟨rfl, rfl, rfl⟩
    scheduleDerived := fun h => absurd h (by simp [State.reset])
    ibufSound := .nil _
    obufSound := .nil _
    outputWritten := ⟨Nat.zero_le _, fun i hi => absurd hi (Nat.not_lt_zero i)⟩
    chainingSettled := .inl ⟨rfl, rfl⟩
    resultLegal := ⟨by simp [State.reset, errCodes], fun _ => rfl⟩ }

/-! ### The schedule KEXP loads -/

theorem length_expand (key : List Byte) : (expand key).length = 4 * (roundsOf (key.length / 4) + 1) := by
  simp only [expand, length_expandLoop, length_keyWords, roundsOf]
  omega

/-- The recurrence of R133 on the words of an expansion. -/
theorem wordAt_expand (key : List Byte) {i : Nat} (hkey : 0 < key.length / 4) (h1 : key.length / 4 ≤ i)
    (h2 : i < 4 * (roundsOf (key.length / 4) + 1)) :
    wordAt (expand key) i =
      xorBytes (wordAt (expand key) (i - key.length / 4))
        (scheduleTemp (key.length / 4) i (wordAt (expand key) (i - 1))) := by
  apply expandLoop_added _ _ hkey
  · rw [length_keyWords]
  · rwa [length_keyWords]
  · rw [length_keyWords]
    omega

/-- For each legal key length NK and NR hold their values exactly, and the schedule fits KS. -/
theorem KeyLenLegal.bounds {s : State} (h : KeyLenLegal s) :
    0 < s.keyLen.toNat / 4 ∧ (BitVec.ofNat 8 (s.keyLen.toNat / 4)).toNat = s.keyLen.toNat / 4 ∧
      (BitVec.ofNat 8 (roundsOf (s.keyLen.toNat / 4))).toNat = roundsOf (s.keyLen.toNat / 4) ∧
      4 * (roundsOf (s.keyLen.toNat / 4) + 1) ≤ 60 := by
  rcases h with h | h | h <;> rw [h] <;> decide

/-- Every word the loaded schedule covers is the expansion's, whatever KS held. -/
theorem KeyLenLegal.scheduleWord_write {s : State} (h : KeyLenLegal s) (ks : Vector Word 60) {w : Nat}
    (hw : w < 4 * (roundsOf (s.keyLen.toNat / 4) + 1)) :
    scheduleWord (writeSchedule (expand (keyBytes s)) ks) w = wordAt (expand (keyBytes s)) w := by
  obtain ⟨-, -, -, h60⟩ := h.bounds
  rw [scheduleWord_writeSchedule _ _ _ (by omega), if_pos]
  rwa [length_expand, length_keyBytes s h]

theorem ScheduleLegal.loadSchedule {s : State} (hlen : KeyLenLegal s) :
    ScheduleLegal (Effect.loadSchedule.apply s) := by
  rcases hlen with h | h | h <;> simp [Effect.apply, ScheduleLegal, h, roundsOf]

theorem ScheduleDerived.loadSchedule {s : State} (hlen : KeyLenLegal s) :
    ScheduleDerived (Effect.loadSchedule.apply s) := by
  obtain ⟨hpos, hnk, hnr, -⟩ := hlen.bounds
  intro _ i h1 h2
  simp only [Effect.apply, succeed_fields, hnk, hnr] at h1 h2 ⊢
  have hkey := length_keyBytes s hlen
  have hrec := wordAt_expand (keyBytes s) (i := i) (by omega) (by omega) (by rwa [hkey])
  rw [hlen.scheduleWord_write _ h2, hlen.scheduleWord_write _ (by omega), hlen.scheduleWord_write _ (by omega), hrec, hkey]

/-! ### What an effect, an abort and a host transaction keep -/

theorem CoreSound.scheduleLegal_apply {i : Instr} {s : State} {e : Effect} (h : CoreSound s) (he : e.Allowed i s) :
    ScheduleLegal (e.apply s) := by
  by_cases hl : e = .loadSchedule
  · subst hl
    exact .loadSchedule he.2
  · obtain ⟨-, hnk, hnr, hkv⟩ := e.apply_schedule s hl
    rw [ScheduleLegal, hnk, hnr, hkv]
    exact h.scheduleLegal

theorem CoreSound.scheduleDerived_apply {i : Instr} {s : State} {e : Effect} (h : CoreSound s) (he : e.Allowed i s) :
    ScheduleDerived (e.apply s) := by
  by_cases hl : e = .loadSchedule
  · subst hl
    exact .loadSchedule he.2
  · obtain ⟨hks, hnk, hnr, hkv⟩ := e.apply_schedule s hl
    rw [ScheduleDerived, hks, hnk, hnr, hkv]
    exact h.scheduleDerived

theorem CoreSound.obufSound_apply {i : Instr} {s : State} {e : Effect} (h : CoreSound s) (he : e.Allowed i s) :
    BufferSound (e.apply s).obuf (bufSize s) := by
  rcases e.apply_output he with ⟨hobuf, -⟩ | ⟨out, hlen, hobuf, -⟩ <;> rw [hobuf]
  · exact h.obufSound
  · exact h.obufSound.writeBytes hlen

theorem CoreSound.outputWritten_apply {i : Instr} {s : State} {e : Effect} (h : CoreSound s) (he : e.Allowed i s) :
    OutputWritten (e.apply s) := by
  have hsize : bufSize (e.apply s) = bufSize s := by simp [bufSize]
  rcases e.apply_output he with ⟨hobuf, holen⟩ | ⟨out, hlen, hobuf, holen⟩ <;>
    rw [OutputWritten, hsize, hobuf, holen]
  · exact h.outputWritten
  · have hle : (BitVec.ofNat 32 out.length).toNat ≤ out.length := by
      rw [BitVec.toNat_ofNat]
      exact Nat.mod_le _ _
    refine ⟨by omega, fun i hi => ?_⟩
    rw [Memory.read_writeBytes, if_pos (by omega)]
    simp
    omega

/-- The number of blocks a CBC command counts fits BLK. -/
theorem blk_ne_zero {i : Instr} {s : State} {blocks : Nat} (hb : blocks = chainedBlocks i s) (h0 : blocks ≠ 0) :
    BitVec.ofNat 32 blocks ≠ 0 := by
  have hlt : s.ilen.toNat < 2 ^ 32 := s.ilen.isLt
  have hle : blocks ≤ s.ilen.toNat / 16 + 1 := by
    rw [hb, chainedBlocks]
    split <;> omega
  intro h
  have := congrArg BitVec.toNat h
  rw [BitVec.toNat_ofNat, Nat.mod_eq_of_lt (by omega)] at this
  exact h0 this

theorem CoreSound.chainingSettled_apply {i : Instr} {s : State} {e : Effect} (h : CoreSound s) (he : e.Allowed i s) :
    ChainingSettled (e.apply s) := by
  cases e with
  | chained out last blocks =>
    obtain ⟨-, -, hb, h0⟩ := he
    exact .inr ⟨rfl, blk_ne_zero hb h0⟩
  | _ => simpa [Effect.apply, ChainingSettled] using h.chainingSettled

/-- A command that succeeds keeps the invariant. -/
theorem CoreSound.apply {i : Instr} {s : State} {e : Effect} (h : CoreSound s) (he : e.Allowed i s) :
    CoreSound (e.apply s) where
  scheduleLegal := h.scheduleLegal_apply he
  scheduleDerived := h.scheduleDerived_apply he
  ibufSound := by simpa [bufSize] using h.ibufSound
  obufSound := by simpa [bufSize] using h.obufSound_apply he
  outputWritten := h.outputWritten_apply he
  chainingSettled := h.chainingSettled_apply he
  resultLegal := ⟨by simp [errCodes], by simp⟩

theorem code_mem_errCodes {k : ErrorKind} (h : k ≠ .keyExpansionFailure) : k.code ∈ errCodes := by
  cases k with
  | keyExpansionFailure => exact absurd rfl h
  | _ => decide

/-- A command that fails keeps the invariant (R240). -/
theorem CoreSound.raise {s : State} (h : CoreSound s) (c : AbortScope) {f : Failure}
    (hf : f.kind ≠ .keyExpansionFailure) : CoreSound (raise c f s) where
  scheduleLegal := by simpa [ScheduleLegal] using h.scheduleLegal
  scheduleDerived := by simpa [ScheduleDerived] using h.scheduleDerived
  ibufSound := by simpa [bufSize] using h.ibufSound
  obufSound := by simpa [bufSize] using h.obufSound
  outputWritten := by
    cases c with
    | errorOnly => simpa [OutputWritten, bufSize] using h.outputWritten
    | _ => simp [OutputWritten]
  chainingSettled := by
    cases c with
    | chaining => simp [ChainingSettled]
    | _ => simpa [ChainingSettled] using h.chainingSettled
  resultLegal := by
    have herr : (Machine.raise c f s).err = f.kind.code := by simp
    rw [ResultLegal, herr]
    exact ⟨code_mem_errCodes hf, fun h0 => absurd h0 (code_ne_zero f.kind)⟩

/-- Every command keeps the invariant. -/
theorem CoreSound.endCommand {s : State} (h : CoreSound s) (i : Instr) :
    CoreSound (endCommand i (commandEffect i s) s) := by
  cases he : commandEffect i s with
  | error f => exact h.raise _ (commandEffect_error_kind he)
  | ok e => exact h.apply (allowed_of_commandEffect he)

/-- A state that differs in what the host may write and in the model's lists is sound when its IBUF is. -/
theorem CoreSound.host {s t : State} (h : CoreSound s)
    (ht : t = { s with
      key := t.key, keyLen := t.keyLen, st := t.st, iv := t.iv, ibuf := t.ibuf, ilen := t.ilen
      inputs := t.inputs, responses := t.responses })
    (hb : BufferSound t.ibuf (bufSize s)) : CoreSound t := by
  rw [ht]
  exact ⟨h.scheduleLegal, h.scheduleDerived, hb, h.obufSound, h.outputWritten, h.chainingSettled, h.resultLegal⟩

theorem CoreSound.respond {s : State} (h : CoreSound s) (r : Response) : CoreSound (respond r s) :=
  h.host rfl h.ibufSound

theorem CoreSound.hostWrite {s u : State} {e : HostEvent} (h : CoreSound s) (hu : HostWrite s e u) : CoreSound u := by
  refine h.host (t := u) ?_ ?_
  · rw [hu.frame]
  · rcases hu.ibuf with hi | ⟨i, v, hi, hw⟩
    · rw [hi]
      exact h.ibufSound
    · rw [hw]
      exact h.ibufSound.write hi v

/-- Serving an event keeps the invariant. -/
theorem CoreSound.serve {s t : State} {e : HostEvent} (h : CoreSound s) (ht : serve e s = .next t) : CoreSound t := by
  by_cases hreset : e = .reset
  · subst hreset
    cases ht
    exact (coreReset_hardwareReset s).coreSound
  by_cases hissue : ∃ cw, e = .issue cw
  · obtain ⟨cw, rfl⟩ := hissue
    cases hd : decode cw with
    | ok i =>
      rw [serve_issue_ok cw i s hd] at ht
      rw [eq_endCommand_of_exec ht]
      exact (h.respond _).endCommand i
    | error x =>
      rw [serve_issue_error cw x s hd] at ht
      cases ht
      exact (h.respond _).raise _ nofun
  · obtain ⟨r, u, hu, rfl⟩ := serve_transaction hreset (fun cw hcw => hissue ⟨cw, hcw⟩) ht
    exact (h.hostWrite hu).respond r

/-- Settles O56: the reset state is a reset state of the core, and every such state is sound. -/
theorem resetMeetsInvariant : Obligations.ResetMeetsInvariant :=
  coreReset_reset.coreSound

/-- Settles O57: a waiting step changes nothing, and serving each kind of event keeps every part of the invariant. -/
theorem stepKeepsInvariant : Obligations.StepKeepsInvariant := by
  intro s t h ht
  rcases step_inv ht with ⟨-, rfl⟩ | ⟨e, rest, -, hserve⟩
  · exact h
  · have hrest : CoreSound { s with inputs := rest } := h.host rfl h.ibufSound
    exact hrest.serve hserve

end Sys2Proof.Machine
end

section
/-! SUPPORT. Two states that differ only in what the spec calls unobservable (10_state.md R44, R30, R33): every operation
that touches neither KS nor OBUF keeps them so; the commands that do touch them decide from what the two states share. -/

namespace Sys2Proof.Machine

/-- The state with these contents of KS and OBUF. -/
def withStores (ks : Vector Word 60) (obuf : Memory) (s : State) : State :=
  { s with ks := ks, obuf := obuf }

@[simp] theorem withStores_fields (ks : Vector Word 60) (obuf : Memory) (s : State) :
    (withStores ks obuf s).key = s.key ∧ (withStores ks obuf s).keyLen = s.keyLen ∧
      (withStores ks obuf s).ks = ks ∧ (withStores ks obuf s).nk = s.nk ∧ (withStores ks obuf s).nr = s.nr ∧
      (withStores ks obuf s).kvalid = s.kvalid ∧ (withStores ks obuf s).st = s.st ∧
      (withStores ks obuf s).iv = s.iv ∧ (withStores ks obuf s).chain = s.chain ∧
      (withStores ks obuf s).ibuf = s.ibuf ∧ (withStores ks obuf s).ilen = s.ilen ∧
      (withStores ks obuf s).obuf = obuf ∧ (withStores ks obuf s).olen = s.olen ∧
      (withStores ks obuf s).res = s.res ∧ (withStores ks obuf s).phase = s.phase ∧
      (withStores ks obuf s).blk = s.blk ∧ (withStores ks obuf s).err = s.err ∧
      (withStores ks obuf s).errInfo = s.errInfo ∧ (withStores ks obuf s).cfg = s.cfg ∧
      (withStores ks obuf s).draws = s.draws ∧ (withStores ks obuf s).resets = s.resets ∧
      (withStores ks obuf s).inputs = s.inputs ∧ (withStores ks obuf s).responses = s.responses :=
  ⟨rfl, rfl, rfl, rfl, rfl, rfl, rfl, rfl, rfl, rfl, rfl, rfl, rfl, rfl, rfl, rfl, rfl, rfl, rfl, rfl, rfl, rfl, rfl⟩

theorem SameToHost.exists_withStores {s s' : State} (h : SameToHost s s') : ∃ ks obuf, s' = withStores ks obuf s :=
  ⟨s'.ks, s'.obuf, h.others⟩

theorem SameToHost.cfg_inputs {s s' : State} (h : SameToHost s s') : s'.cfg = s.cfg ∧ s'.inputs = s.inputs := by
  obtain ⟨ks, obuf, rfl⟩ := h.exists_withStores
  simp

theorem SameToHost.refl (s : State) : SameToHost s s :=
  ⟨rfl, fun _ _ _ => rfl, fun _ _ => rfl⟩

/-- An operation that neither reads nor writes KS and OBUF, keeps what says how much of them shows, or clears OLEN. -/
structure IgnoresStores (f : State → State) : Prop where
  commutes : ∀ ks obuf s, f (withStores ks obuf s) = withStores ks obuf (f s)
  shown : ∀ s, (f s).kvalid = s.kvalid ∧ (f s).nr = s.nr ∧ (f s).resets = s.resets
  olen : ∀ s, (f s).olen = s.olen ∨ (f s).olen = 0

theorem IgnoresStores.comp {f g : State → State} (hg : IgnoresStores g) (hf : IgnoresStores f) :
    IgnoresStores (g ∘ f) where
  commutes ks obuf s := by
    simp only [Function.comp_apply, hf.commutes, hg.commutes]
  shown s := by
    simp only [Function.comp_apply, hg.shown, hf.shown, and_self]
  olen s := by
    rcases hg.olen (f s) with h | h
    · simpa only [Function.comp_apply, h] using hf.olen s
    · exact .inr h

/-- A choice made without reading KS and OBUF. -/
theorem IgnoresStores.ite (p : State → Prop) [DecidablePred p] {f g : State → State}
    (hp : ∀ ks obuf s, p (withStores ks obuf s) ↔ p s) (hf : IgnoresStores f) (hg : IgnoresStores g) :
    IgnoresStores fun s => if p s then f s else g s where
  commutes ks obuf s := by
    simp only [hp, hf.commutes, hg.commutes]
    split <;> rfl
  shown s := by
    split
    · exact hf.shown s
    · exact hg.shown s
  olen s := by
    split
    · exact hf.olen s
    · exact hg.olen s

theorem IgnoresStores.stores {f : State → State} (hf : IgnoresStores f) (s : State) :
    (f s).ks = s.ks ∧ (f s).obuf = s.obuf := by
  have hs : f s = withStores s.ks s.obuf (f s) := hf.commutes s.ks s.obuf s
  exact ⟨(congrArg State.ks hs).trans rfl, (congrArg State.obuf hs).trans rfl⟩

/-- Such an operation keeps two states the same to the host. -/
theorem SameToHost.map {s s' : State} {f : State → State} (h : SameToHost s s') (hf : IgnoresStores f) :
    SameToHost (f s) (f s') := by
  obtain ⟨ks, obuf, rfl⟩ := h.exists_withStores
  obtain ⟨hks, hobuf⟩ := hf.stores s
  obtain ⟨hkv, hnr, hresets⟩ := hf.shown s
  rw [hf.commutes]
  refine ⟨rfl, fun hv w hw => ?_, fun i hi => ?_⟩
  · rw [hks]
    exact h.schedule (hkv ▸ hv) w (hnr ▸ hw)
  · have hi' : i < s.olen.toNat := by
      rcases hf.olen s with ho | ho <;> rw [ho] at hi
      · exact hi
      · exact absurd hi (Nat.not_lt_zero i)
    have hout := h.output i hi'
    simp only [obufByte, withStores, hobuf, hresets] at hout ⊢
    exact hout

/-! ### The operations that ignore the stores -/

theorem ignoresStores_succeed : IgnoresStores succeed :=
  ⟨fun _ _ _ => rfl, fun _ => ⟨rfl, rfl, rfl⟩, fun _ => .inl rfl⟩

theorem ignoresStores_cbcFinish : IgnoresStores cbcFinish :=
  ⟨fun _ _ _ => rfl, fun _ => ⟨rfl, rfl, rfl⟩, fun _ => .inl rfl⟩

theorem ignoresStores_respond (r : Response) : IgnoresStores (respond r) :=
  ⟨fun _ _ _ => rfl, fun _ => ⟨rfl, rfl, rfl⟩, fun _ => .inl rfl⟩

theorem ignoresStores_illegalCommand (cw : Reg32) : IgnoresStores (illegalCommand cw) :=
  ⟨fun _ _ _ => rfl, fun _ => ⟨rfl, rfl, rfl⟩, fun _ => .inl rfl⟩

theorem ignoresStores_raise (c : AbortScope) (f : Failure) : IgnoresStores (raise c f) where
  commutes _ _ _ := by cases c <;> rfl
  shown _ := by simp
  olen _ := by cases c <;> simp

theorem ignoresStores_portRegRead (n : Nat) : IgnoresStores (portRegRead n) where
  commutes ks obuf s := by
    have hv : regValue (withStores ks obuf s) n = regValue s n := rfl
    simp only [portRegRead, hv]
    cases regValue s n <;> rfl
  shown s := by simp only [portRegRead]; split <;> simp
  olen s := by simp only [portRegRead]; split <;> simp

theorem ignoresStores_portRegWrite (n : Nat) (v : Reg32) : IgnoresStores (portRegWrite n v) := by
  have hkeyLen : IgnoresStores fun s => { s with keyLen := v } :=
    ⟨fun _ _ _ => rfl, fun _ => ⟨rfl, rfl, rfl⟩, fun _ => .inl rfl⟩
  have hilen : IgnoresStores fun s => { s with ilen := v } :=
    ⟨fun _ _ _ => rfl, fun _ => ⟨rfl, rfl, rfl⟩, fun _ => .inl rfl⟩
  exact .ite (fun _ => n = 3) (fun _ _ _ => Iff.rfl) ((ignoresStores_respond _).comp hkeyLen)
    (.ite (fun _ => n = 4) (fun _ _ _ => Iff.rfl) ((ignoresStores_respond _).comp hilen) (ignoresStores_respond _))

theorem ignoresStores_setSpaceByte (sp : Space) (i : Nat) (v : Byte) : IgnoresStores (setSpaceByte sp i v) where
  commutes _ _ _ := by cases sp <;> rfl
  shown _ := by simp
  olen _ := by simp

theorem ignoresStores_portDataWrite (space i : Nat) (v : Byte) : IgnoresStores (portDataWrite space i v) := by
  unfold portDataWrite
  cases spaceOf space with
  | none => exact ignoresStores_respond _
  | some sp =>
    exact .ite (fun s => i < spaceSize s.cfg sp ∧ hostWritable sp = true) (fun _ _ _ => Iff.rfl)
      ((ignoresStores_respond _).comp (ignoresStores_setSpaceByte sp i v)) (ignoresStores_respond _)

/-! ### The operations that read or write the stores -/

/-- A host read shows the same byte: KS and OBUF are gated (R30, R33). -/
theorem SameToHost.spaceByte_eq {s s' : State} (h : SameToHost s s') (sp : Space) (i : Nat) :
    spaceByte s' sp i = spaceByte s sp i := by
  have hout := h.output i
  have hsched := h.schedule
  obtain ⟨ks, obuf, rfl⟩ := h.exists_withStores
  cases sp with
  | ks =>
    by_cases hg : s.kvalid = false ∨ 16 * (s.nr.toNat + 1) ≤ i
    · simp only [spaceByte, withStores_fields, if_pos hg]
    · have hw := hsched (by simpa using fun hv => hg (.inl hv)) (i / 4) (by omega)
      simp only [withStores_fields] at hw
      simp only [spaceByte, withStores_fields, hw]
  | obuf =>
    by_cases hg : s.olen.toNat ≤ i
    · simp only [spaceByte, withStores_fields, if_pos hg]
    · simp only [spaceByte, withStores_fields, hout (by omega)]
  | _ => rfl

/-- A host read gives the same answer. -/
theorem SameToHost.portDataRead {s s' : State} (h : SameToHost s s') (space i : Nat) :
    SameToHost (portDataRead space i s) (portDataRead space i s') := by
  obtain ⟨hcfg, -⟩ := h.cfg_inputs
  unfold Machine.portDataRead
  cases spaceOf space with
  | none => exact h.map (ignoresStores_respond _)
  | some sp =>
    simp only [hcfg, h.spaceByte_eq]
    split <;> exact h.map (ignoresStores_respond _)

/-- The same output written to both states. -/
theorem SameToHost.setOutput {s s' : State} (h : SameToHost s s') (out : List Byte) :
    SameToHost (setOutput out s) (setOutput out s') := by
  obtain ⟨ks, obuf, rfl⟩ := h.exists_withStores
  refine ⟨rfl, h.schedule, fun i hi => ?_⟩
  have hlt : i < out.length := by
    simp only [setOutput_fields, BitVec.toNat_ofNat] at hi
    exact Nat.lt_of_lt_of_le hi (Nat.mod_le _ _)
  rw [obufByte_setOutput out s i hlt, obufByte_setOutput out _ i hlt]

/-- KEXP writes every word its schedule covers, from the key. -/
theorem SameToHost.loadSchedule {s s' : State} (h : SameToHost s s') (hlen : KeyLenLegal s) :
    SameToHost (Effect.loadSchedule.apply s) (Effect.loadSchedule.apply s') := by
  obtain ⟨ks, obuf, rfl⟩ := h.exists_withStores
  obtain ⟨-, -, hnr, -⟩ := hlen.bounds
  have hkey : keyBytes (withStores ks obuf s) = keyBytes s := rfl
  refine ⟨by simp [Effect.apply, succeed, withStores], fun _ w hw => ?_, fun i hi => ?_⟩
  · simp only [Effect.apply, succeed_fields, withStores_fields, hkey, hnr] at hw ⊢
    rw [hlen.scheduleWord_write s.ks hw, hlen.scheduleWord_write ks hw]
  · simp only [Effect.apply, succeed_fields] at hi
    simpa [Effect.apply, obufByte] using h.output i hi

/-- The same effect on both states. -/
theorem SameToHost.apply {i : Instr} {s s' : State} {e : Effect} (h : SameToHost s s') (he : e.Allowed i s) :
    SameToHost (e.apply s) (e.apply s') := by
  cases e with
  | loadSchedule => exact h.loadSchedule he.2
  | output out => exact (h.setOutput out).map ignoresStores_succeed
  | chained out last blocks =>
    have hstart := h.map (f := fun s => { s with chain := last, blk := BitVec.ofNat 32 blocks })
      ⟨fun _ _ _ => rfl, fun _ => ⟨rfl, rfl, rfl⟩, fun _ => .inl rfl⟩
    exact (hstart.setOutput out).map ignoresStores_cbcFinish
  | _ =>
    exact h.map {
      commutes := fun _ _ _ => rfl
      shown := fun _ => by simp [Effect.apply]
      olen := fun _ => .inl (by simp [Effect.apply]) }

/-! ### The commands decide from what the states share -/

theorem cbcEncrypt_congr {k k' : Schedule} (h : ∀ b, encrypt k b = encrypt k' b) (iv : Block) (plain : List Byte) :
    cbcEncrypt k iv plain = cbcEncrypt k' iv plain := by
  have hblocks : ∀ buf n, cbcEncryptBlocks k iv buf n = cbcEncryptBlocks k' iv buf n := by
    intro buf n
    induction n with
    | zero => rfl
    | succ n ih => simp only [cbcEncryptBlocks, ih, h]
  simp only [cbcEncrypt, hblocks]

theorem cbcDecrypt_congr {k k' : Schedule} (h : ∀ b, decrypt k b = decrypt k' b) (iv : Block) (cipher : List Byte) :
    cbcDecrypt k iv cipher = cbcDecrypt k' iv cipher := by
  have hblocks : ∀ n, cbcDecryptBlocks k iv cipher n = cbcDecryptBlocks k' iv cipher n := by
    intro n
    induction n with
    | zero => rfl
    | succ n ih => simp only [cbcDecryptBlocks, ih, h]
  simp only [cbcDecrypt, hblocks]

theorem needSchedule_congr {s s' : State} {r r' : Except Failure Effect} (hv : s'.kvalid = s.kvalid)
    (hr : s.kvalid = true → r' = r) : needSchedule s' r' = needSchedule s r := by
  cases h : s.kvalid with
  | false => simp [needSchedule, hv, h]
  | true => simp [needSchedule, hv, h, hr h]

/-- Every command has the same failure or effect in both states. -/
theorem commandEffect_eq_of_sameToHost {s s' : State} (h : SameToHost s s') (i : Instr) :
    commandEffect i s' = commandEffect i s := by
  have hsched := h.schedule
  obtain ⟨ks, obuf, rfl⟩ := h.exists_withStores
  have hkey : s.kvalid = true → ∀ r, r ≤ s.nr.toNat →
      roundKey (schedule (withStores ks obuf s)) r = roundKey (schedule s) r := fun hv r hr =>
    roundKey_congr _ _ r fun w hw => hsched hv w (by omega)
  have henc : s.kvalid = true → ∀ b, encrypt (schedule (withStores ks obuf s)) b = encrypt (schedule s) b :=
    fun hv b => encrypt_congr _ _ b rfl fun w hw => hsched hv w hw
  have hdec : s.kvalid = true → ∀ b, decrypt (schedule (withStores ks obuf s)) b = decrypt (schedule s) b :=
    fun hv b => decrypt_congr _ _ b rfl fun w hw => hsched hv w hw
  cases i with
  | addrk r =>
    refine needSchedule_congr rfl fun hv => ?_
    simp only [withStores_fields]
    split
    · rfl
    · rename_i hr
      rw [hkey hv r.toNat (by simpa [BitVec.lt_def] using hr)]
  | encb => exact needSchedule_congr rfl fun hv => congrArg (Except.ok ∘ Effect.writeSt) (henc hv s.st)
  | decb => exact needSchedule_congr rfl fun hv => congrArg (Except.ok ∘ Effect.writeSt) (hdec hv s.st)
  | cbcenc =>
    refine needSchedule_congr rfl fun hv => ?_
    rw [cbcEncrypt_congr (henc hv)]
    rfl
  | cbcdec =>
    refine needSchedule_congr rfl fun hv => ?_
    rw [cbcDecrypt_congr (hdec hv)]
    rfl
  | _ => rfl

/-- Every command keeps the two states the same to the host. -/
theorem SameToHost.endCommand {s s' : State} (h : SameToHost s s') (i : Instr) :
    SameToHost (endCommand i (commandEffect i s) s) (endCommand i (commandEffect i s') s') := by
  rw [commandEffect_eq_of_sameToHost h i]
  cases he : commandEffect i s with
  | error f => exact h.map (ignoresStores_raise _ f)
  | ok e => exact h.apply (allowed_of_commandEffect he)

/-- Both states serve an event alike. -/
theorem SameToHost.serve {s s' t : State} {e : HostEvent} (h : SameToHost s s') (ht : serve e s = .next t) :
    ∃ t', serve e s' = .next t' ∧ SameToHost t t' := by
  cases e with
  | regRead n => cases ht; exact ⟨_, rfl, h.map (ignoresStores_portRegRead n)⟩
  | regWrite n v => cases ht; exact ⟨_, rfl, h.map (ignoresStores_portRegWrite n v)⟩
  | dataRead space i => cases ht; exact ⟨_, rfl, h.portDataRead space i⟩
  | dataWrite space i v => cases ht; exact ⟨_, rfl, h.map (ignoresStores_portDataWrite space i v)⟩
  | reset =>
    cases ht
    refine ⟨_, rfl, ?_⟩
    obtain ⟨ks, obuf, rfl⟩ := h.exists_withStores
    exact .refl _
  | issue cw =>
    have hr := h.map (ignoresStores_respond .commandEnded)
    cases hd : decode cw with
    | ok i =>
      rw [serve_issue_ok cw i _ hd] at ht ⊢
      rw [eq_endCommand_of_exec ht]
      exact ⟨_, exec_eq_endCommand i _, hr.endCommand i⟩
    | error x =>
      rw [serve_issue_error cw x _ hd] at ht ⊢
      cases ht
      exact ⟨_, rfl, hr.map (ignoresStores_illegalCommand cw)⟩

/-- Settles O58: both states wait, or both serve the same event with the same answer. -/
theorem hiddenStoresNeverShow : Obligations.HiddenStoresNeverShow := by
  intro s s' t h ht
  obtain ⟨-, hin⟩ := h.cfg_inputs
  rcases step_inv ht with ⟨hs, rfl⟩ | ⟨e, rest, hs, hserve⟩
  · exact ⟨s', by simp [step, nextEvent, hin, hs], h⟩
  · have hrest := h.map (f := fun s => { s with inputs := rest })
      ⟨fun _ _ _ => rfl, fun _ => ⟨rfl, rfl, rfl⟩, fun _ => .inl rfl⟩
    rw [step_cons s' e rest (hin.trans hs)]
    exact hrest.serve hserve

end Sys2Proof.Machine
end

section
/-! SUPPORT. The statements about one step, one command or one port (10_state.md), from the effects, the host transactions
and the reset states above. -/

namespace Sys2Proof.Machine

/-- Settles O7: serving an issue event decodes its word; `withFetchWord` places that event first. -/
theorem stepRunsDecodedCommand : Obligations.StepRunsDecodedCommand := by
  refine ⟨fun s cw rest i hs hi => ?_, fun s w i hi => ?_⟩
  · rw [step_cons s _ rest hs, serve_issue_ok cw i _ hi]
    rfl
  · have hdec : decode (commandWord 32 w) = .ok i := by
      simp only [decodeTableWord, Nat.le_refl, if_true] at hi
      cases hd : decode (commandWord 32 w) with
      | error x => rw [hd] at hi; cases hi
      | ok j => rw [hd] at hi; cases hi; rfl
    have hin : (s.withFetchWord 32 w).inputs = .issue (commandWord 32 w) :: s.inputs := rfl
    rw [step_cons _ _ _ hin, serve_issue_ok _ i _ hdec]
    rfl

/-- Settles O8: each register number by cases, reads and writes alike. -/
theorem registerPortFollowsMap : Obligations.RegisterPortFollowsMap := by
  refine ⟨fun s n rest hs => ?_, fun s n v rest hs => ?_, fun n hn => ?_⟩
  · rw [step_cons s _ rest hs]
    match n with
    | 0 | 1 | 2 | 3 | 4 | 5 | 6 | 7 | 8 | 9 | _ + 10 => rfl
  · rw [step_cons s _ rest hs]
    simp only [serve, portRegWrite]
    by_cases h3 : n = 3
    · subst h3
      rfl
    · by_cases h4 : n = 4
      · subst h4
        rfl
      · simp [h3, h4, respond]
  · interval_cases n <;> rfl

/-- Settles O9: STATUS is one byte for each value of KVALID, ERRF and PHASE. -/
theorem statusBits : Obligations.StatusBits := by
  intro s
  have herr : errFlag s = true ↔ s.err ≠ 0 := by simp [errFlag]
  rw [← herr, statusByte]
  cases s.kvalid <;> cases errFlag s <;> cases s.phase <;> decide

theorem CoreReset.resetValues {t : State} (ht : CoreReset t) : ResetValues t := by
  rw [ht]
  constructor
  case key | st | iv | chain => exact fun i _ => byteAt_replicate _ i
  case status => exact (by decide : statusByte State.reset = 0)
  case ksGated | obufGated => exact fun i => by simp [spaceByte, State.reset]
  all_goals rfl

/-- Settles O14: both the reset state and the state after the reset input are reset states of the core. -/
theorem resetGivesResetValues : Obligations.ResetGivesResetValues := by
  refine ⟨coreReset_reset.resetValues, fun s rest hs => ⟨_, step_cons s _ rest hs, ?_, rfl⟩⟩
  exact (coreReset_hardwareReset _).resetValues

/-- Settles O15: a step with no event waiting is the wait. -/
theorem idleCoreWaits : Obligations.IdleCoreWaits := by
  intro s hs
  simp [step, nextEvent, hs]

/-- Settles O13: a host transaction is a host write and one recorded answer. -/
theorem hostTransactionsKeepResults : Obligations.HostTransactionsKeepResults := by
  intro s t e rest hs hreset hissue ht
  rw [step_cons s e rest hs] at ht
  obtain ⟨r, u, hu, rfl⟩ := serve_transaction hreset hissue ht
  rw [hu.frame]
  exact ⟨rfl, by simp⟩

/-- Settles O25: KS index `16r + 4c + j` is byte `j` of word `4r + c`, below the gate of R30. -/
theorem roundKeyReadableThroughKs : Obligations.RoundKeyReadableThroughKs := by
  intro s r c j hv hr h14 hc hj
  have hgate : ¬(s.kvalid = false ∨ 16 * (s.nr.toNat + 1) ≤ 16 * r + 4 * c + j) := by
    rw [hv]
    simp
    omega
  have hword : (16 * r + 4 * c + j) / 4 = 4 * r + c := by omega
  have hbyte : (16 * r + 4 * c + j) % 4 = j := by omega
  refine ⟨by omega, ?_, byteAt_roundKey (schedule s) r c j hc hj⟩
  rw [spaceByte, if_neg hgate, hword, hbyte]

/-- Settles O55: an abort and every effect leave what the host writes; RES and the draws follow the kind of effect. -/
theorem commandsLeaveHostInputs : Obligations.CommandsLeaveHostInputs := by
  intro i s t ht
  rw [eq_endCommand_of_exec ht]
  cases he : commandEffect i s with
  | error f => simp [endCommand]
  | ok e =>
    have hallowed := allowed_of_commandEffect he
    have hres := e.apply_res hallowed
    have hdraws := fun hi => (e.apply_iv_draws hallowed hi).2
    simpa [endCommand] using ⟨hres, hdraws⟩

/-- The abort of a CBC command settles PHASE and BLK; no other abort touches them (R240). -/
theorem raise_abortScope_phase_blk (i : Instr) (f : Failure) (s : State) :
    if i = .cbcenc ∨ i = .cbcdec then
      (raise (abortScope i) f s).phase = .init ∧ (raise (abortScope i) f s).blk = 0
    else (raise (abortScope i) f s).phase = s.phase ∧ (raise (abortScope i) f s).blk = s.blk := by
  cases i <;> simp [abortScope]

/-- Settles O49: a CBC command aborts, or has the effect `chained` with its number of blocks. -/
theorem phaseAndBlkFollowCbc : Obligations.PhaseAndBlkFollowCbc := by
  intro i s t ht
  rw [eq_endCommand_of_exec ht]
  cases he : commandEffect i s with
  | error f =>
    have hraise := raise_abortScope_phase_blk i f s
    have herr : (endCommand i (.error f) s).err ≠ 0 := by
      simpa [endCommand] using code_ne_zero f.kind
    split at hraise
    · rename_i hi
      rw [if_pos hi]
      exact ⟨fun h => absurd h herr, fun _ => hraise⟩
    · rename_i hi
      rw [if_neg hi]
      exact hraise
  | ok e =>
    have hallowed := allowed_of_commandEffect he
    split
    · rename_i hi
      obtain ⟨out, last, rfl⟩ := hallowed.eq_chained hi
      have hblk : BitVec.ofNat 32 (chainedBlocks i s) =
          BitVec.ofNat 32 (if i = .cbcenc then s.ilen.toNat / 16 + 1 else s.ilen.toNat / 16) := rfl
      exact ⟨fun _ => ⟨rfl, hblk⟩, fun h => absurd rfl h⟩
    · rename_i hi
      exact Effect.apply_phase_blk hallowed hi

/-- Settles O51: a host write to IV is through space 1, and the only word that decodes to IVGEN is its own. -/
theorem ivChangesOnlyByHostOrIvgen : Obligations.IvChangesOnlyByHostOrIvgen := by
  intro s t ht hreset hivgen hwrite
  rcases step_inv ht with ⟨-, rfl⟩ | ⟨e, rest, hs, hserve⟩
  · rfl
  by_cases hissue : ∃ cw, e = .issue cw
  · obtain ⟨cw, rfl⟩ := hissue
    cases hd : decode cw with
    | ok i =>
      have hi : i ≠ .ivgen := by
        rintro rfl
        rw [← encode_of_decode hd] at hs
        exact hivgen rest hs
      rw [serve_issue_ok cw i _ hd] at hserve
      exact (exec_iv hserve hi).trans rfl
    | error x =>
      rw [serve_issue_error cw x _ hd] at hserve
      cases hserve
      rfl
  · have hr : e ≠ .reset := fun h => hreset rest (h ▸ hs)
    obtain ⟨r, u, hu, rfl⟩ := serve_transaction hr (fun cw h => hissue ⟨cw, h⟩) hserve
    exact hu.iv fun j v h => hwrite j v rest (h ▸ hs)

/-- Settles O48: a CBC command's failure or effect reads none of the leftovers, and its end writes all of them but OBUF
above the output and RES. -/
theorem cbcCommandsIgnoreLeftovers : Obligations.CbcCommandsIgnoreLeftovers := by
  intro i s s' hi hs
  obtain ⟨st, chain, phase, blk, obuf, olen, res, err, errInfo, rfl⟩ :
      ∃ st chain phase blk obuf olen res err errInfo, s' = { s with
        st := st, chain := chain, phase := phase, blk := blk, obuf := obuf, olen := olen
        res := res, err := err, errInfo := errInfo } := ⟨_, _, _, _, _, _, _, _, _, hs⟩
  refine ⟨_, _, exec_eq_endCommand i s, exec_eq_endCommand i _, ?_⟩
  have hsame : commandEffect i { s with
      st := st, chain := chain, phase := phase, blk := blk, obuf := obuf, olen := olen
      res := res, err := err, errInfo := errInfo } = commandEffect i s := by
    rcases hi with rfl | rfl <;> rfl
  rw [hsame]
  cases he : commandEffect i s with
  | error f => rcases hi with rfl | rfl <;> exact ⟨rfl, rfl⟩
  | ok e =>
    have hallowed := allowed_of_commandEffect he
    obtain ⟨out, last, rfl⟩ := hallowed.eq_chained hi
    have hlen : out.length < 2 ^ 32 := by
      have hfit := s.cfg.legal.2.2
      have hle := hallowed.2.1
      simp only [bufSize] at hle
      omega
    exact ⟨(outputBytes_setOutput out _ hlen).trans (outputBytes_setOutput out _ hlen).symm, rfl⟩

end Sys2Proof.Machine
end

section
/-! SUPPORT. The data port (20_memory.md R61, R64 to R66, R69, R72): what a read answers, what a write does, and what every
byte the host can address reads as after it. -/

namespace Sys2Proof.Machine

/-! ### Spaces by number -/

/-- The number of a space (R61). -/
def spaceNumber : Space → Nat
  | .key => 0
  | .iv => 1
  | .st => 2
  | .ks => 3
  | .chain => 4
  | .ibuf => 5
  | .obuf => 6

theorem spaceOf_eq_some_iff {n : Nat} {sp : Space} : spaceOf n = some sp ↔ n = spaceNumber sp := by
  constructor
  · intro h
    unfold spaceOf at h
    split at h <;> cases h <;> rfl
  · rintro rfl
    cases sp <;> rfl

theorem accepted_dataRead {cfg : Config} {n i : Nat} :
    (HostEvent.dataRead n i).accepted cfg = true ↔ ∃ sp, spaceOf n = some sp ∧ i < spaceSize cfg sp := by
  cases h : spaceOf n <;> simp [HostEvent.accepted, h]

theorem accepted_dataWrite {cfg : Config} {n i : Nat} {v : Byte} :
    (HostEvent.dataWrite n i v).accepted cfg = true ↔
      ∃ sp, spaceOf n = some sp ∧ i < spaceSize cfg sp ∧ hostWritable sp = true := by
  cases h : spaceOf n <;> simp [HostEvent.accepted, h]

/-- The writes the data port accepts, by the number of the space (R61). -/
theorem accepted_dataWrite_eq (cfg : Config) (n i : Nat) (v : Byte) :
    (HostEvent.dataWrite n i v).accepted cfg =
      match n with
      | 0 => decide (i < 32)
      | 1 | 2 => decide (i < 16)
      | 5 => decide (i < cfg.bufMax + 16)
      | _ => false := by
  match n with
  | 0 | 1 | 2 | 5 => exact Bool.and_true _
  | 3 | 4 | 6 => exact Bool.and_false _
  | _ + 7 => rfl

/-! ### The two transactions -/

theorem portDataRead_of_space {n : Nat} {sp : Space} (h : spaceOf n = some sp) (i : Nat) (s : State) :
    portDataRead n i s = respond
      (if i < spaceSize s.cfg sp then .byteValue true (spaceByte s sp i) else .byteValue false 0) s := by
  simp only [portDataRead, h]
  split <;> rfl

theorem portDataRead_of_absent {n : Nat} (h : spaceOf n = none) (i : Nat) (s : State) :
    portDataRead n i s = respond (.byteValue false 0) s := by
  simp only [portDataRead, h]

/-- The answer of a read behind a gate: an error response outside the space, 0x00 where the gate is closed. -/
theorem gated_answer (size i : Nat) (closed : Prop) [Decidable closed] (b : Byte) :
    (if i < size then Response.byteValue true (if closed then 0 else b) else .byteValue false 0) =
      if size ≤ i then .byteValue false 0 else if closed then .byteValue true 0 else .byteValue true b := by
  by_cases hi : i < size
  · rw [if_pos hi, if_neg (Nat.not_le.2 hi)]
    split <;> rfl
  · rw [if_neg hi, if_pos (Nat.not_lt.1 hi)]

theorem portDataWrite_of_writable {n i : Nat} {sp : Space} {s : State} (h : spaceOf n = some sp)
    (hi : i < spaceSize s.cfg sp) (hw : hostWritable sp = true) (v : Byte) :
    portDataWrite n i v s = respond (.written true) (setSpaceByte sp i v s) := by
  simp only [portDataWrite, h]
  rw [if_pos ⟨hi, hw⟩]

theorem portDataWrite_of_refused {n i : Nat} {v : Byte} {s : State}
    (h : (HostEvent.dataWrite n i v).accepted s.cfg = false) :
    portDataWrite n i v s = respond (.written false) s := by
  cases hsp : spaceOf n with
  | none => simp only [portDataWrite, hsp]
  | some sp =>
    simp only [portDataWrite, hsp]
    rw [if_neg]
    simpa [HostEvent.accepted, hsp] using h

/-- The frame of a data write (R65): KEY, IV, ST or IBUF at most, and the answer. -/
theorem portDataWrite_frame (n i : Nat) (v : Byte) (s : State) :
    portDataWrite n i v s = { s with
      key := (portDataWrite n i v s).key, iv := (portDataWrite n i v s).iv, st := (portDataWrite n i v s).st
      ibuf := (portDataWrite n i v s).ibuf
      responses := s.responses ++ [.written ((HostEvent.dataWrite n i v).accepted s.cfg)] } := by
  cases h : (HostEvent.dataWrite n i v).accepted s.cfg with
  | false =>
    rw [portDataWrite_of_refused h]
    rfl
  | true =>
    obtain ⟨sp, hsp, hi, hw⟩ := accepted_dataWrite.1 h
    rw [portDataWrite_of_writable hsp hi hw]
    cases sp <;> rfl

/-! ### What a byte reads as -/

/-- A host write below the size of a fixed space: what every index reads as afterwards. -/
theorem byteAt_setIfInBounds_of_lt {n : Nat} (a : Vector Byte n) {i : Nat} (hi : i < n) (v : Byte) (j : Nat) :
    byteAt (a.setIfInBounds i v) j = if j = i then v else byteAt a j := by
  by_cases hj : j < n
  · exact byteAt_setIfInBounds a i j v hj
  · have hne : j ≠ i := by omega
    simp [byteAt, List.getD_eq_getElem?_getD, hj, hne]

/-- The model's own lists do not show in any byte. -/
theorem spaceByte_lists (s : State) (ins : List HostEvent) (outs : List Response) (sp : Space) (j : Nat) :
    spaceByte { s with inputs := ins, responses := outs } sp j = spaceByte s sp j := by
  cases sp <;> rfl

theorem spaceByte_setSpaceByte_same {sp : Space} {i : Nat} {s : State} (hi : i < spaceSize s.cfg sp)
    (hw : hostWritable sp = true) (v : Byte) (j : Nat) :
    spaceByte (setSpaceByte sp i v s) sp j = if j = i then v else spaceByte s sp j := by
  cases sp with
  | key | iv | st => exact byteAt_setIfInBounds_of_lt _ hi v j
  | ibuf => exact ibufByte_write s i j v
  | ks | chain | obuf => cases hw

/-- No store overlaps another (R69). -/
theorem spaceByte_setSpaceByte_other {sp sp' : Space} (h : sp' ≠ sp) (i : Nat) (v : Byte) (s : State) (j : Nat) :
    spaceByte (setSpaceByte sp i v s) sp' j = spaceByte s sp' j := by
  cases sp with
  | key => cases sp' with
    | key => exact absurd rfl h
    | _ => rfl
  | iv => cases sp' with
    | iv => exact absurd rfl h
    | _ => rfl
  | st => cases sp' with
    | st => exact absurd rfl h
    | _ => rfl
  | ibuf => cases sp' with
    | ibuf => exact absurd rfl h
    | _ => rfl
  | ks | chain | obuf => rfl

/-- A data write, said once for every byte: the addressed one if the write is accepted, and no other (R65, R69). -/
theorem spaceByte_portDataWrite (n i : Nat) (v : Byte) (s : State) (sp : Space) (j : Nat) :
    spaceByte (portDataWrite n i v s) sp j =
      if (HostEvent.dataWrite n i v).accepted s.cfg = true ∧ n = spaceNumber sp ∧ j = i then v
      else spaceByte s sp j := by
  cases h : (HostEvent.dataWrite n i v).accepted s.cfg with
  | false =>
    rw [portDataWrite_of_refused h, respond, spaceByte_lists _ _ _ sp j]
    simp
  | true =>
    obtain ⟨a, ha, hi, hw⟩ := accepted_dataWrite.1 h
    rw [portDataWrite_of_writable ha hi hw, respond, spaceByte_lists _ _ _ sp j]
    simp only [← spaceOf_eq_some_iff, ha]
    by_cases hsp : sp = a
    · subst hsp
      simpa using spaceByte_setSpaceByte_same hi hw v j
    · simpa [Ne.symm hsp] using spaceByte_setSpaceByte_other hsp i v s j

/-- A data write seen through a space the host can write. -/
theorem spaceByte_portDataWrite_writable {sp : Space} (hw : hostWritable sp = true) (n i : Nat) (v : Byte) (s : State)
    (j : Nat) :
    spaceByte (portDataWrite n i v s) sp j =
      if n = spaceNumber sp ∧ i < spaceSize s.cfg sp ∧ j = i then v else spaceByte s sp j := by
  rw [spaceByte_portDataWrite]
  refine if_congr ⟨?_, ?_⟩ rfl rfl
  · rintro ⟨hacc, hn, hj⟩
    obtain ⟨a, ha, hi, -⟩ := accepted_dataWrite.1 hacc
    rw [spaceOf_eq_some_iff.2 hn] at ha
    cases ha
    exact ⟨hn, hi, hj⟩
  · rintro ⟨hn, hi, hj⟩
    exact ⟨accepted_dataWrite.2 ⟨sp, spaceOf_eq_some_iff.2 hn, hi, hw⟩, hn, hj⟩

theorem spaceByte_portDataWrite_of_lt {sp : Space} (hw : hostWritable sp = true) (n i : Nat) (v : Byte) {s : State}
    {j : Nat} (hj : j < spaceSize s.cfg sp) :
    spaceByte (portDataWrite n i v s) sp j = if n = spaceNumber sp ∧ j = i then v else spaceByte s sp j := by
  rw [spaceByte_portDataWrite_writable hw]
  exact if_congr (and_congr_right fun _ => ⟨And.right, fun h => ⟨h ▸ hj, h⟩⟩) rfl rfl

/-! ### One step, and the statements -/

theorem step_dataRead {s : State} {n i : Nat} {rest : List HostEvent} {sp : Space}
    (hs : s.inputs = .dataRead n i :: rest) (hsp : spaceOf n = some sp) (hi : i < spaceSize s.cfg sp) :
    step s = .next (respond (.byteValue true (spaceByte s sp i)) { s with inputs := rest }) := by
  rw [step_cons s _ rest hs, serve, portDataRead_of_space hsp, if_pos hi, spaceByte_lists _ _ _ sp i]

/-- The step that serves an accepted write, for the transactions after it. -/
theorem step_dataWrite {s : State} {n i : Nat} {v : Byte} {rest : List HostEvent}
    (hs : s.inputs = .dataWrite n i v :: rest) (hacc : (HostEvent.dataWrite n i v).accepted s.cfg = true) :
    ∃ t, step s = .next t ∧ t.inputs = rest ∧ t.cfg = s.cfg ∧ t.responses = s.responses ++ [.written true] ∧
      ∀ sp j, spaceByte t sp j = if n = spaceNumber sp ∧ j = i then v else spaceByte s sp j := by
  have hframe := portDataWrite_frame n i v { s with inputs := rest }
  refine ⟨_, step_cons s _ rest hs, ?_, ?_, ?_, fun sp j => ?_⟩
  · rw [hframe]
  · rw [hframe]
  · rw [hframe, hacc]
  · rw [spaceByte_portDataWrite, spaceByte_lists _ _ _ sp j]
    simp [hacc]

/-- Settles O12: the read answers its byte of the state the write leaves. -/
theorem hostReadSeesLatestWrite : Obligations.HostReadSeesLatestWrite := by
  intro s n i v n' j hwrite hread
  obtain ⟨sp, hsp, hj⟩ := accepted_dataRead.1 hread
  obtain ⟨t, ht, hin, hcfg, hresp, hbyte⟩ :=
    step_dataWrite (s := { s with inputs := [.dataWrite n i v, .dataRead n' j] }) rfl hwrite
  refine ⟨t, _, _, _, ht, step_dataRead hin hsp (hcfg ▸ hj), step_dataRead rfl hsp hj, rfl, ?_⟩
  have hn : n' = n ↔ n = spaceNumber sp := by
    rw [spaceOf_eq_some_iff.1 hsp, eq_comm]
  simp [respond, hresp, hbyte, hn, spaceByte_lists]

/-- Settles O10: the answer of a space that exists is its byte below its size; R30 and R33 gate KS and OBUF. -/
theorem dataPortReads : Obligations.DataPortReads := by
  intro s n i rest hs
  rw [step_cons s _ rest hs, serve]
  match n with
  | 0 | 1 | 2 | 4 | 5 => rw [portDataRead_of_space rfl]; rfl
  | 3 =>
    rw [portDataRead_of_space rfl]
    exact congrArg (fun r => Host.Outcome.next (respond r _)) (gated_answer 240 i _ _)
  | 6 =>
    rw [portDataRead_of_space rfl]
    exact congrArg (fun r => Host.Outcome.next (respond r _)) (gated_answer (s.cfg.bufMax + 16) i _ _)
  | _ + 7 => rw [portDataRead_of_absent rfl]; rfl

/-- Settles O11: the frame of a data write, and each of the four stores read through its space. -/
theorem dataPortWrites : Obligations.DataPortWrites := by
  intro s n i v rest hs
  have hframe := portDataWrite_frame n i v { s with inputs := rest }
  rw [accepted_dataWrite_eq] at hframe
  refine ⟨_, step_cons s _ rest hs, hframe, fun j hj => ?_, fun j hj => ?_, fun j hj => ?_, fun j => ?_⟩
  · exact spaceByte_portDataWrite_of_lt (sp := .key) rfl n i v hj
  · exact spaceByte_portDataWrite_of_lt (sp := .iv) rfl n i v hj
  · exact spaceByte_portDataWrite_of_lt (sp := .st) rfl n i v hj
  · exact spaceByte_portDataWrite_writable (sp := .ibuf) rfl n i v _ j

end Sys2Proof.Machine
end

section
/-! SUPPORT. The decoder on the words of the commands (30_encoding.md R90 to R94): one inversion for the words that decode
to a mnemonic, from which the round trip and the masks of R93 follow. -/

namespace Sys2Proof

theorem command_fields (i : Instr) : i.mnemonic.command i.fieldA i.fieldB = i := by
  cases i <;> rfl

/-- The fields a command's format does not use are zero in its word (R91). -/
theorem unusedZero_fields (i : Instr) : i.mnemonic.format.unusedZero i.fieldA i.fieldB = true := by
  cases i <;> rfl

@[simp] theorem mnemonic_command (m : Mnemonic) (a b : Byte) : (m.command a b).mnemonic = m := by
  cases m <;> rfl

/-- The three checks of R94, passed: the word decodes. -/
theorem decode_of_fields {cw : Reg32} {m : Mnemonic} (hrsv : rsvField cw = 0) (hop : opField cw = m.opcode)
    (hunused : m.format.unusedZero (aField cw) (bField cw) = true) :
    decode cw = .ok (m.command (aField cw) (bField cw)) := by
  simp [decode, hrsv, hop, mnemonicOfOpcode_opcode, hunused]

/-- The words that decode to a mnemonic, by their fields. -/
theorem decodes_to_mnemonic_iff (m : Mnemonic) (cw : Reg32) :
    (∃ i, decode cw = .ok i ∧ i.mnemonic = m) ↔
      rsvField cw = 0 ∧ opField cw = m.opcode ∧ m.format.unusedZero (aField cw) (bField cw) = true := by
  constructor
  · rintro ⟨i, hi, rfl⟩
    obtain ⟨hrsv, hop, hunused, -⟩ := fields_of_decode hi
    exact ⟨hrsv, hop, hunused⟩
  · rintro ⟨hrsv, hop, hunused⟩
    exact ⟨_, decode_of_fields hrsv hop hunused, mnemonic_command m _ _⟩

theorem decode_encode (i : Instr) : decode (encode i) = .ok i := by
  obtain ⟨hrsv, hop, ha, hb⟩ := fields_encode i
  have hunused : i.mnemonic.format.unusedZero (aField (encode i)) (bField (encode i)) = true := by
    rw [ha, hb, unusedZero_fields]
  rw [decode_of_fields hrsv hop hunused, ha, hb, command_fields]

/-- Settles O1: the fields of a command's word pass the decoder's checks and are the command's operands. -/
theorem encodedCommandDecodes : Obligations.EncodedCommandDecodes :=
  decode_encode

/-- Settles O2: the decoder leaves no bit of the word free. -/
theorem decodedWordIsItsEncoding : Obligations.DecodedWordIsItsEncoding :=
  fun _ _ => encode_of_decode

/-! ### Masks and matches (R93) -/

/-- Two words are equal when their fields are (R90). -/
theorem word_eq_iff_fields (cw cw' : Reg32) :
    cw = cw' ↔ rsvField cw = rsvField cw' ∧ opField cw = opField cw' ∧ aField cw = aField cw' ∧
      bField cw = bField cw' := by
  constructor
  · rintro rfl
    exact ⟨rfl, rfl, rfl, rfl⟩
  · rintro ⟨hrsv, hop, ha, hb⟩
    rw [← word_eq_fields cw, ← word_eq_fields cw', hrsv, hop, ha, hb]

theorem fields_and (x y : Reg32) :
    rsvField (x &&& y) = rsvField x &&& rsvField y ∧ opField (x &&& y) = opField x &&& opField y ∧
      aField (x &&& y) = aField x &&& aField y ∧ bField (x &&& y) = bField x &&& bField y :=
  ⟨BitVec.extractLsb'_and, BitVec.extractLsb'_and, BitVec.extractLsb'_and, BitVec.extractLsb'_and⟩

/-- A match fixes the opcode; every other field of it is zero. -/
theorem fields_matchBits (m : Mnemonic) :
    rsvField m.matchBits = 0 ∧ opField m.matchBits = m.opcode ∧ aField m.matchBits = 0 ∧ bField m.matchBits = 0 := by
  cases m <;> decide

/-- What a mask covers of field A: all of it, unless the format has that operand (R91). -/
def Format.maskA : Format → Byte
  | .formatZ => BitVec.allOnes 8
  | .formatA | .formatAB => 0

/-- What a mask covers of field B. -/
def Format.maskB : Format → Byte
  | .formatZ | .formatA => BitVec.allOnes 8
  | .formatAB => 0

/-- A mask covers RSV and OP whole, and of A and B what the format does not use. -/
theorem fields_maskBits (m : Mnemonic) :
    rsvField m.maskBits = BitVec.allOnes 8 ∧ opField m.maskBits = BitVec.allOnes 8 ∧
      aField m.maskBits = m.format.maskA ∧ bField m.maskBits = m.format.maskB := by
  cases m <;> decide

theorem unusedZero_iff_mask (f : Format) (a b : Byte) :
    f.unusedZero a b = true ↔ a &&& f.maskA = 0 ∧ b &&& f.maskB = 0 := by
  cases f <;> simp [Format.unusedZero, Format.maskA, Format.maskB, -BitVec.reduceAllOnes]

/-- Settles O3: masking a word masks each of its fields, and the mask covers what the decoder checks. -/
theorem decodingFollowsMatchAndMask : Obligations.DecodingFollowsMatchAndMask := by
  intro m cw
  rw [decodes_to_mnemonic_iff, word_eq_iff_fields]
  simp only [fields_and, fields_matchBits, fields_maskBits, BitVec.and_allOnes, unusedZero_iff_mask]

/-- Settles O4: the words of commands by the round trip, the illegal words by the check that refuses each. -/
theorem sampleWordsDecode : Obligations.SampleWordsDecode :=
  ⟨decode_encode (.gfmul 15 6), decode_encode (.addrk 11), decode_encode .cbcenc, decode_encode .ivgen,
    by decide, by decide, by decide⟩

/-! ### Statements and commands (R97) -/

theorem wellFormed_iff (t : CommandText) :
    t.wellFormed = true ↔ t.operands.length = t.mnemonic.operandCount ∧ ∀ v ∈ t.operands, v < 256 := by
  simp [CommandText.wellFormed, CommandText.countOk, CommandText.rangeOk]

/-- The operands of a command are bytes, as many as its mnemonic takes. -/
theorem wellFormed_text (i : Instr) : i.text.wellFormed = true := by
  rw [wellFormed_iff]
  cases i with
  | gfmul a b => exact ⟨rfl, by simpa [Instr.text] using ⟨a.isLt, b.isLt⟩⟩
  | addrk r => exact ⟨rfl, by simpa [Instr.text] using r.isLt⟩
  | _ => exact ⟨rfl, by simp [Instr.text]⟩

/-- A statement writes the mnemonic of its command and the operand fields of its word. -/
theorem text_fields (i : Instr) :
    i.text.mnemonic = i.mnemonic ∧ BitVec.ofNat 8 (i.text.operands.getD 0 0) = i.fieldA ∧
      BitVec.ofNat 8 (i.text.operands.getD 1 0) = i.fieldB := by
  cases i <;> simp [Instr.text, Instr.mnemonic, Instr.fieldA, Instr.fieldB]

theorem assemble_text (i : Instr) : assemble i.text = some i := by
  obtain ⟨hm, ha, hb⟩ := text_fields i
  rw [assemble, if_pos (wellFormed_text i), hm, ha, hb, command_fields]

/-- Settles O5: a command's own statement has its operands; any other count or range is not well formed. -/
theorem statementsAssembleToTheirCommand : Obligations.StatementsAssembleToTheirCommand := by
  refine ⟨fun i => ⟨wellFormed_text i, assemble_text i⟩, fun t hbad => ?_⟩
  rw [assemble, if_neg]
  intro hwf
  obtain ⟨hcount, hrange⟩ := (wellFormed_iff t).1 hwf
  rcases hbad with hlen | ⟨v, hv, h256⟩
  · exact hlen hcount
  · exact Nat.not_lt.2 h256 (hrange v hv)

end Sys2Proof
end

section
/-! SUPPORT. The source's public operations (30_encoding.md R104): the host hands over the input, issues one command, reads
ERR, and reads what the command left. -/

namespace Sys2Proof.Machine

theorem perform_regWrite_ilen (v : Reg32) (p : List HostEvent) (s : State) :
    perform (.regWrite 4 v :: p) s = perform p { s with ilen := v, responses := s.responses ++ [.written true] } :=
  perform_step _ _ _ { s with ilen := v, responses := s.responses ++ [.written true] } rfl

theorem perform_regWrite_keyLen (v : Reg32) (p : List HostEvent) (s : State) :
    perform (.regWrite 3 v :: p) s = perform p { s with keyLen := v, responses := s.responses ++ [.written true] } :=
  perform_step _ _ _ { s with keyLen := v, responses := s.responses ++ [.written true] } rfl

/-! ### One command and its result -/

/-- The state with the model's own lists (log 1) set. -/
def withLists (ins : List HostEvent) (outs : List Response) (s : State) : State :=
  { s with inputs := ins, responses := outs }

/-- The state a command leaves. -/
def afterCommand (i : Instr) (s : State) : State :=
  endCommand i (commandEffect i s) s

theorem exec_eq_afterCommand (i : Instr) (s : State) : exec i s = .next (afterCommand i s) :=
  exec_eq_endCommand i s

theorem commandEffect_withLists (i : Instr) (ins : List HostEvent) (outs : List Response) (s : State) :
    commandEffect i (withLists ins outs s) = commandEffect i s := by
  cases i <;> rfl

/-- A command neither reads nor writes the model's lists. -/
theorem afterCommand_withLists (i : Instr) (ins : List HostEvent) (outs : List Response) (s : State) :
    afterCommand i (withLists ins outs s) = withLists ins outs (afterCommand i s) := by
  rw [afterCommand, afterCommand, commandEffect_withLists]
  cases commandEffect i s with
  | error f =>
    simp only [endCommand]
    cases abortScope i <;> rfl
  | ok e => cases e <;> rfl

/-- A command and `GET ERR` (R104), in the host's answers. -/
theorem perform_command_getErr_eq (i : Instr) (s : State) :
    perform [command i, .regRead 1] s =
      .next (withLists [] (s.responses ++ [.commandEnded, .regValue true ((afterCommand i s).err.zeroExtend 32)])
        (afterCommand i s)) := by
  have hexec : exec i (withLists [.regRead 1] (s.responses ++ [.commandEnded]) s) =
      .next (withLists [.regRead 1] (s.responses ++ [.commandEnded]) (afterCommand i s)) := by
    rw [exec_eq_afterCommand, afterCommand_withLists]
  rw [perform_command_getErr i s _ (decode_encode i) hexec rfl]
  simp [withLists]

/-! ### The host's readings of its answers -/

@[simp] theorem getValues_append (as bs : List Response) : getValues (as ++ bs) = getValues as ++ getValues bs :=
  List.filterMap_append

@[simp] theorem readValues_append (as bs : List Response) : readValues (as ++ bs) = readValues as ++ readValues bs :=
  List.filterMap_append

@[simp] theorem getValues_replicate_written (n : Nat) : getValues (List.replicate n (.written true)) = [] := by
  simp [getValues]

@[simp] theorem readValues_replicate_written (n : Nat) : readValues (List.replicate n (.written true)) = [] := by
  simp [readValues]

@[simp] theorem getValues_bytes (out : List Byte) : getValues (out.map (.byteValue true)) = [] := by
  simp [getValues]

@[simp] theorem readValues_bytes (out : List Byte) : readValues (out.map (.byteValue true)) = out := by
  simp [readValues, List.filterMap_map]

@[simp] theorem getValues_regValue (ok : Bool) (v : Reg32) (as : List Response) :
    getValues (.regValue ok v :: as) = v :: getValues as :=
  rfl

@[simp] theorem readValues_regValue (ok : Bool) (v : Reg32) (as : List Response) :
    readValues (.regValue ok v :: as) = readValues as :=
  rfl

theorem lastGet_of_getValues {t : State} {as bs : List Response} {v : Reg32} (ht : t.responses = as ++ bs)
    (h : getValues bs = [v]) : lastGet t = v := by
  simp [lastGet, ht, h]

/-! ### Handing over a key or an input (R98) -/

/-- The transactions `p` are writes, all accepted, which take the core from `s` to `u` and leave its schedule, IV and
parameter. -/
structure HandedOver (p : List HostEvent) (s u : State) : Prop where
  performs : ∀ q, perform (p ++ q) s = perform q u
  answers : ∃ n, u.responses = s.responses ++ List.replicate n (.written true)
  keepsSchedule : u.ks = s.ks ∧ u.nk = s.nk ∧ u.nr = s.nr ∧ u.kvalid = s.kvalid
  keepsIv : u.iv = s.iv
  keepsCfg : u.cfg = s.cfg

theorem toNat_ofNat_of_lt {n : Nat} (h : n < 2 ^ 32) : (BitVec.ofNat 32 n).toNat = n := by
  rw [BitVec.toNat_ofNat, Nat.mod_eq_of_lt h]

theorem inputBytes_written (input : List Byte) (s : State) (h : input.length < 2 ^ 32) :
    inputBytes { s with ibuf := s.ibuf.writeBytes 0 input, ilen := BitVec.ofNat 32 input.length } = input := by
  apply List.ext_getElem
  · rw [length_inputBytes, toNat_ofNat_of_lt h]
  · intro i h1 h2
    simp [inputBytes_getElem, ibufByte, Memory.read_writeBytes, h2]

/-- LDIN of an input the buffer holds. -/
theorem handedOver_ldIn {input : List Byte} {s : State} (h : input.length ≤ bufSize s) :
    ∃ u, HandedOver (ldIn input) s u ∧ inputBytes u = input := by
  have hlt : input.length < 2 ^ 32 := by
    have hfit := s.cfg.legal.2.2
    simp only [bufSize] at h
    omega
  refine ⟨{ s with
      ibuf := s.ibuf.writeBytes 0 input, ilen := BitVec.ofNat 32 input.length
      responses := s.responses ++ List.replicate (input.length + 1) (.written true) }, ?_,
    inputBytes_written input s hlt⟩
  refine ⟨fun q => ?_, ⟨_, rfl⟩, ⟨rfl, rfl, rfl, rfl⟩, rfl, rfl⟩
  rw [ldIn, List.append_assoc, perform_writeIbuf input 0 _ s (by omega), List.singleton_append, perform_regWrite_ilen,
    List.append_assoc, ← List.replicate_succ']

/-- A key of at most 32 bytes is the bytes `KEY[0..L)` after it is handed over (R24). -/
theorem take_key_of_bytes (kv : Vector Byte 32) (key : List Byte) (h : key.length ≤ 32)
    (hbyte : ∀ j, j < key.length → byteAt kv j = key.getD j 0) : kv.toList.take key.length = key := by
  apply List.ext_getElem
  · simpa using h
  · intro j h1 h2
    have := hbyte j h2
    rw [byteAt_eq_getElem kv j (by omega)] at this
    simpa [List.getD_eq_getElem?_getD, h2] using this

/-- LDKEY, or the length alone of a key KEY cannot hold (R104). -/
theorem handedOver_loadKey (key : List Byte) (s : State) :
    ∃ u, HandedOver (loadKey key) s u ∧ u.keyLen = BitVec.ofNat 32 key.length ∧
      (key.length ≤ 32 → u.key.toList.take key.length = key) := by
  by_cases h : key.length ≤ 32
  · obtain ⟨kv, hperform, hbyte⟩ := perform_writeKey key 0 s (by omega)
    refine ⟨{ s with
        key := kv, keyLen := BitVec.ofNat 32 key.length
        responses := s.responses ++ List.replicate (key.length + 1) (.written true) }, ?_, rfl, fun _ => ?_⟩
    · refine ⟨fun q => ?_, ⟨_, rfl⟩, ⟨rfl, rfl, rfl, rfl⟩, rfl, rfl⟩
      rw [loadKey, if_pos h, ldKey, List.append_assoc, hperform, List.singleton_append, perform_regWrite_keyLen,
        List.append_assoc, ← List.replicate_succ']
    · refine take_key_of_bytes kv key h fun j hj => ?_
      rw [hbyte j (by omega), if_pos (by omega), Nat.sub_zero]
  · refine ⟨{ s with
        keyLen := BitVec.ofNat 32 key.length, responses := s.responses ++ List.replicate 1 (.written true) },
      ?_, rfl, fun h' => absurd h' h⟩
    refine ⟨fun q => ?_, ⟨_, rfl⟩, ⟨rfl, rfl, rfl, rfl⟩, rfl, rfl⟩
    rw [loadKey, if_neg h, List.singleton_append, perform_regWrite_keyLen]
    rfl

/-- The command after what is handed over, and `GET ERR`: the one value and no byte the host reads. -/
theorem HandedOver.perform_command {p : List HostEvent} {s u : State} (hu : HandedOver p s u) (i : Instr) :
    ∃ answers, perform (p ++ [command i, .regRead 1]) s =
        .next (withLists [] (s.responses ++ answers) (afterCommand i u)) ∧
      getValues answers = [(afterCommand i u).err.zeroExtend 32] ∧ readValues answers = [] := by
  obtain ⟨n, hn⟩ := hu.answers
  refine ⟨List.replicate n (.written true) ++
    [.commandEnded, .regValue true ((afterCommand i u).err.zeroExtend 32)], ?_, ?_, ?_⟩
  · rw [hu.performs, perform_command_getErr_eq, hn, List.append_assoc]
  · rw [getValues_append, getValues_replicate_written]
    rfl
  · rw [readValues_append, readValues_replicate_written]
    rfl

/-! ### The key schedule -/

theorem zeroExtend_eq_zero_iff (b : Byte) : b.zeroExtend 32 = (0 : Reg32) ↔ b = 0 := by
  bv_omega

/-- A `GET ERRINFO` on its own. -/
theorem perform_getErrInfo (outs : List Response) (t : State) :
    perform [.regRead 2] (withLists [] outs t) =
      .next (withLists [] (outs ++ [.regValue true t.errInfo]) t) :=
  rfl

/-- The operation ends as KEXP does, and the host reads ERR, and ERRINFO after a failure. -/
theorem HandedOver.newKeySchedule_eq {key : List Byte} {s u : State} (hu : HandedOver (loadKey key) s u) :
    ∃ answers, newKeySchedule key s = .next (withLists [] (s.responses ++ answers) (afterCommand .kexp u)) ∧
      getValues answers =
        if (afterCommand .kexp u).err = 0 then [0]
        else [(afterCommand .kexp u).err.zeroExtend 32, (afterCommand .kexp u).errInfo] := by
  obtain ⟨answers, hperform, hget, -⟩ := hu.perform_command .kexp
  have hlast : lastGet (withLists [] (s.responses ++ answers) (afterCommand .kexp u)) =
      (afterCommand .kexp u).err.zeroExtend 32 := lastGet_of_getValues rfl hget
  rw [newKeySchedule, hperform, andThen_next, hlast]
  simp only [zeroExtend_eq_zero_iff]
  split
  · rename_i herr
    exact ⟨answers, rfl, by rw [hget, herr]; rfl⟩
  · refine ⟨answers ++ [.regValue true (afterCommand .kexp u).errInfo], ?_, ?_⟩
    · rw [perform_getErrInfo, List.append_assoc]
    · rw [getValues_append, hget]
      rfl

theorem afterCommand_of_effect {i : Instr} {s : State} {r : Except Failure Effect} (h : commandEffect i s = r) :
    afterCommand i s = endCommand i r s := by
  rw [afterCommand, h]

theorem commandEffect_kexp_legal {s : State} (h : KeyLenLegal s) : commandEffect .kexp s = .ok .loadSchedule := by
  simp only [commandEffect]
  rw [if_neg]
  unfold KeyLenLegal at h
  tauto

theorem commandEffect_kexp_illegal {s : State} (h : ¬ KeyLenLegal s) :
    commandEffect .kexp s = .error ⟨.invalidKeySize, s.keyLen⟩ := by
  simp only [commandEffect]
  rw [if_pos]
  unfold KeyLenLegal at h
  tauto

/-- A key of a legal length gives its schedule (R138). -/
theorem newKeySchedule_legal {key : List Byte} (s : State)
    (h : key.length = 16 ∨ key.length = 24 ∨ key.length = 32) :
    ∃ t answers, newKeySchedule key s = .next t ∧ t.responses = s.responses ++ answers ∧
      keyScheduleReturned answers t = .ok (⟨t.ks, key.length / 4 + 6⟩, BitVec.ofNat 8 (key.length / 4)) ∧
      t.kvalid = true ∧
      ∀ w, w < 4 * (key.length / 4 + 6 + 1) → scheduleWord t.ks w = wordAt (expand key) w := by
  obtain ⟨u, hu, hlen, hkey⟩ := handedOver_loadKey key s
  have hnat : u.keyLen.toNat = key.length := by
    rw [hlen, toNat_ofNat_of_lt (by omega)]
  have hlegal : KeyLenLegal u := by
    rw [KeyLenLegal, hlen]
    rcases h with h | h | h <;> simp [h]
  have hbytes : keyBytes u = key := by
    rw [keyBytes, hnat, hkey (by omega)]
  obtain ⟨-, -, hnr, -⟩ := hlegal.bounds
  obtain ⟨answers, heq, hget⟩ := hu.newKeySchedule_eq
  rw [afterCommand_of_effect (commandEffect_kexp_legal hlegal), endCommand] at heq hget
  refine ⟨_, answers, heq, rfl, ?_, rfl, fun w hw => ?_⟩
  · rw [if_pos (by simp)] at hget
    simp only [keyScheduleReturned, hget, schedule, withLists, Effect.apply, succeed_fields, hnr]
    rw [hnat, roundsOf]
  · have hword := hlegal.scheduleWord_write u.ks (w := w) (by rwa [hnat])
    rw [hbytes] at hword
    simpa [withLists, Effect.apply, hbytes] using hword

/-- A key of any other length the host can hand over is refused, and the schedule stays (R138, R240). -/
theorem newKeySchedule_illegal {key : List Byte} (s : State) (hlt : key.length < 2 ^ 32)
    (h : ¬(key.length = 16 ∨ key.length = 24 ∨ key.length = 32)) :
    ∃ t answers, newKeySchedule key s = .next t ∧ t.responses = s.responses ++ answers ∧
      keyScheduleReturned answers t = .error (0x01, BitVec.ofNat 32 key.length) ∧
      t.ks = s.ks ∧ t.nk = s.nk ∧ t.nr = s.nr ∧ t.kvalid = s.kvalid := by
  obtain ⟨u, hu, hlen, -⟩ := handedOver_loadKey key s
  have hnat : u.keyLen.toNat = key.length := by
    rw [hlen, toNat_ofNat_of_lt hlt]
  have hillegal : ¬ KeyLenLegal u := by
    rw [← hnat] at h
    rintro (hk | hk | hk) <;> exact h (by simp [hk])
  obtain ⟨answers, heq, hget⟩ := hu.newKeySchedule_eq
  rw [afterCommand_of_effect (commandEffect_kexp_illegal hillegal), endCommand] at heq hget
  refine ⟨_, answers, heq, rfl, ?_, ?_⟩
  · rw [if_neg (by simpa using code_ne_zero _)] at hget
    simp [keyScheduleReturned, hget, hlen, ErrorKind.code]
  · simpa [withLists] using hu.keepsSchedule

/-! ### Encryption and decryption -/

/-- The operation ends, and the bytes or the error its answers say are `v`. -/
def ReturnsBytes (r : Result) (s : State) (v : Except Reg32 (List Byte)) : Prop :=
  ∃ t answers, r = .next t ∧ t.responses = s.responses ++ answers ∧ bytesReturned answers = v

/-- What `encrypt` and `decrypt` have in common (R104): `LDIN input`, the command, `GET ERR`, `RDOUT`. -/
def inputOperation (i : Instr) (input : List Byte) (s : State) : Result :=
  andThen (perform (ldIn input ++ [command i, .regRead 1]) s) rdOut

theorem encryptOperation_eq (plaintext : List Byte) (s : State) :
    encryptOperation plaintext s = inputOperation .cbcenc plaintext s :=
  rfl

theorem decryptOperation_eq (ciphertext : List Byte) (s : State) :
    decryptOperation ciphertext s = inputOperation .cbcdec ciphertext s :=
  rfl

/-- After the command the host reads the error, or the output the command left (R243). -/
theorem HandedOver.returnsBytes {input : List Byte} {s u : State} (hu : HandedOver (ldIn input) s u) (i : Instr)
    (ho : (afterCommand i u).olen.toNat ≤ bufSize (afterCommand i u)) :
    ReturnsBytes (inputOperation i input s) s
      (if (afterCommand i u).err = 0 then .ok (outputBytes (afterCommand i u))
        else .error ((afterCommand i u).err.zeroExtend 32)) := by
  obtain ⟨answers, hperform, hget, hread⟩ := hu.perform_command i
  rw [inputOperation, hperform, andThen_next,
    rdOut_eq (withLists [] (s.responses ++ answers) (afterCommand i u)) ho]
  refine ⟨_, answers ++ .regValue true (afterCommand i u).olen ::
    (outputBytes (afterCommand i u)).map (.byteValue true), rfl, List.append_assoc _ _ _, ?_⟩
  have hget' : getValues (answers ++ .regValue true (afterCommand i u).olen ::
      (outputBytes (afterCommand i u)).map (.byteValue true)) =
      [(afterCommand i u).err.zeroExtend 32, (afterCommand i u).olen] := by
    rw [getValues_append, hget, getValues_regValue, getValues_bytes, List.singleton_append]
  have hread' : readValues (answers ++ .regValue true (afterCommand i u).olen ::
      (outputBytes (afterCommand i u)).map (.byteValue true)) = outputBytes (afterCommand i u) := by
    rw [readValues_append, hread, readValues_regValue, readValues_bytes, List.nil_append]
  simp only [bytesReturned, hget', hread', zeroExtend_eq_zero_iff]

/-- A CBC command that fails: its code is returned. -/
theorem HandedOver.returnsBytes_error {input : List Byte} {s u : State} {i : Instr} {f : Failure}
    (hu : HandedOver (ldIn input) s u) (hi : i = .cbcenc ∨ i = .cbcdec) (he : commandEffect i u = .error f) :
    ReturnsBytes (inputOperation i input s) s (.error (f.kind.code.zeroExtend 32)) := by
  have hscope : abortScope i = .chaining := by rcases hi with rfl | rfl <;> rfl
  have hafter : afterCommand i u = raise .chaining f u := by
    rw [afterCommand_of_effect he, endCommand, hscope]
  have hreturns := hu.returnsBytes i (by simp [hafter])
  rw [hafter, if_neg (by simpa using code_ne_zero _)] at hreturns
  simpa using hreturns

theorem HandedOver.returnsBytes_noSchedule {input : List Byte} {s u : State} {i : Instr}
    (hu : HandedOver (ldIn input) s u) (hi : i = .cbcenc ∨ i = .cbcdec) (hv : u.kvalid = false) :
    ReturnsBytes (inputOperation i input s) s (.error 0x81) := by
  have heffect : commandEffect i u = .error ⟨.noKeySchedule, 0⟩ := by
    rcases hi with rfl | rfl <;> exact needSchedule_eq_error.2 (.inl ⟨hv, rfl⟩)
  exact hu.returnsBytes_error hi heffect

/-- A CBC command that succeeds: its output is returned. -/
theorem HandedOver.returnsBytes_chained {input : List Byte} {s u : State} {i : Instr} {out : List Byte} {last : Block}
    {blocks : Nat} (hu : HandedOver (ldIn input) s u) (he : commandEffect i u = .ok (.chained out last blocks)) :
    ReturnsBytes (inputOperation i input s) s (.ok out) := by
  obtain ⟨-, hfit, -⟩ := allowed_of_commandEffect he
  have hlt : out.length < 2 ^ 32 := by
    have hlegal := u.cfg.legal.2.2
    simp only [bufSize] at hfit
    omega
  have hafter : afterCommand i u = (Effect.chained out last blocks).apply u := afterCommand_of_effect he
  have holen : (afterCommand i u).olen.toNat = out.length := by
    rw [hafter]
    exact toNat_ofNat_of_lt hlt
  have hout : outputBytes (afterCommand i u) = out := by
    rw [hafter]
    exact outputBytes_setOutput out _ hlt
  have hreturns := hu.returnsBytes i (by rw [holen]; simpa [hafter, bufSize] using hfit)
  rwa [hout, if_pos (by simp [hafter])] at hreturns

theorem HandedOver.schedule_eq {p : List HostEvent} {s u : State} (hu : HandedOver p s u) :
    schedule u = schedule s := by
  obtain ⟨hks, -, hnr, -⟩ := hu.keepsSchedule
  rw [schedule, schedule, hks, hnr]

theorem encryptOperation_returns {plaintext : List Byte} {s : State} (h : plaintext.length ≤ bufSize s) :
    ReturnsBytes (encryptOperation plaintext s) s
      (if s.kvalid = false then .error 0x81
        else if s.cfg.bufMax < plaintext.length then .error 0x83
        else .ok (cbcEncrypt (schedule s) s.iv plaintext)) := by
  obtain ⟨u, hu, rfl⟩ := handedOver_ldIn h
  obtain ⟨-, -, -, hkvalid⟩ := hu.keepsSchedule
  rw [encryptOperation_eq]
  split
  · rename_i hv
    exact hu.returnsBytes_noSchedule (.inl rfl) (hkvalid.trans hv)
  rename_i hv
  have hv' : u.kvalid = true := by simpa [hkvalid] using hv
  split
  · rename_i hl
    have hover : u.cfg.bufMax < u.ilen.toNat := by rwa [hu.keepsCfg, ← length_inputBytes]
    exact hu.returnsBytes_error (f := ⟨.lengthOverflow, u.ilen⟩) (.inl rfl)
      (needSchedule_eq_error.2 (.inr ⟨hv', needLength_eq_error.2 (.inl ⟨hover, rfl⟩)⟩))
  · rename_i hl
    have hfits : u.ilen.toNat ≤ u.cfg.bufMax := by rwa [hu.keepsCfg, ← length_inputBytes, ← Nat.not_lt]
    rw [← hu.schedule_eq, ← hu.keepsIv]
    have heffect : commandEffect .cbcenc u = .ok (.chained (cbcEncrypt (schedule u) u.iv (inputBytes u)) _ _) :=
      needSchedule_eq_ok.2 ⟨hv', needLength_eq_ok.2 ⟨hfits, rfl⟩⟩
    exact hu.returnsBytes_chained heffect

theorem decryptOperation_returns {ciphertext : List Byte} {s : State} (h : ciphertext.length ≤ bufSize s) :
    ReturnsBytes (decryptOperation ciphertext s) s
      (if s.kvalid = false then .error 0x81
        else (cbcDecrypt (schedule s) s.iv ciphertext).mapError fun f => f.kind.code.zeroExtend 32) := by
  obtain ⟨u, hu, rfl⟩ := handedOver_ldIn h
  obtain ⟨-, -, -, hkvalid⟩ := hu.keepsSchedule
  rw [decryptOperation_eq]
  split
  · rename_i hv
    exact hu.returnsBytes_noSchedule (.inr rfl) (hkvalid.trans hv)
  rename_i hv
  have hv' : u.kvalid = true := by simpa [hkvalid] using hv
  have hfits : u.ilen.toNat ≤ bufSize u := by rwa [bufSize, hu.keepsCfg, ← length_inputBytes]
  rw [← hu.schedule_eq, ← hu.keepsIv]
  cases hd : cbcDecrypt (schedule u) u.iv (inputBytes u) with
  | error f =>
    exact hu.returnsBytes_error (.inr rfl)
      (needSchedule_eq_error.2 (.inr ⟨hv', needLength_eq_error.2 (.inr ⟨hfits, by rw [hd]; rfl⟩)⟩))
  | ok plaintext =>
    have heffect : commandEffect .cbcdec u = .ok (.chained plaintext _ _) :=
      needSchedule_eq_ok.2 ⟨hv', needLength_eq_ok.2 ⟨hfits, by rw [hd]; rfl⟩⟩
    exact hu.returnsBytes_chained heffect

/-- Settles O59: each operation hands its input over, and its answers say how its one command ended. -/
theorem publicOperationsReturnTheirResults : Obligations.PublicOperationsReturnTheirResults := by
  refine ⟨fun key s hlt => ?_, fun plaintext s h => encryptOperation_returns h, fun ciphertext s h => ?_⟩
  · split
    · exact newKeySchedule_legal s ‹_›
    · exact newKeySchedule_illegal s hlt ‹_›
  · have hreturns := decryptOperation_returns h
    cases hd : cbcDecrypt (schedule s) s.iv ciphertext <;> rw [hd] at hreturns <;> exact hreturns

end Sys2Proof.Machine
end

section
/-! SUPPORT. The field laws of 40_gf_and_tables.md R112, from the loop's two distributive laws; the field inverse; the
tables of R113 to R118 against the field; and the command GFMUL (R119). -/

namespace Sys2Proof.Machine

/-! ### The laws of the multiplier (R112) -/

theorem multiply_xor (a b c : Byte) : multiply a (b ^^^ c) = multiply a b ^^^ multiply a c :=
  multiplyLoop_xor_right 8 0 0 a b c

theorem xor_multiply (a b c : Byte) : multiply (a ^^^ b) c = multiply a c ^^^ multiply b c :=
  multiplyLoop_xor_left 8 0 0 a b c

/-- Both sides are additive in each operand, so the powers of x decide: 64 products. -/
theorem multiply_comm (a b : Byte) : multiply a b = multiply b a := by
  have hpowers : ∀ i j : Fin 8, multiply (BitVec.twoPow 8 i) (BitVec.twoPow 8 j) =
      multiply (BitVec.twoPow 8 j) (BitVec.twoPow 8 i) := by
    decide +kernel
  refine additive_ext (multiply a) (multiply · a) (multiply_xor a) (xor_multiply · · a) (fun j => ?_) b
  exact additive_ext (multiply · _) (multiply _) (xor_multiply · · _) (multiply_xor _) (hpowers · j) a

@[simp] theorem multiply_zero (a : Byte) : multiply a 0 = 0 := by
  simpa using multiply_xor a 0 0

@[simp] theorem zero_multiply (a : Byte) : multiply 0 a = 0 := by
  rw [multiply_comm, multiply_zero]

/-- One pass adds `a`; the other seven meet zero bits. -/
@[simp] theorem multiply_one (a : Byte) : multiply a 1 = a := by
  simp [multiply, multiplyLoop]

theorem multiply_two (a : Byte) : multiply a 2 = double a := by
  simp [multiply, multiplyLoop]

theorem multiply_three (a : Byte) : multiply a 3 = multiply a 2 ^^^ a := by
  calc multiply a 3 = multiply a (2 ^^^ 1) := rfl
    _ = multiply a 2 ^^^ a := by rw [multiply_xor, multiply_one]

/-! ### The S-boxes and the field inverse (R112 to R115) -/

@[simp] theorem invSbox_sbox : ∀ x : Byte, invSbox (sbox x) = x := by
  decide +kernel

/-- A left inverse of a map of a finite set to itself is its right inverse too. -/
@[simp] theorem sbox_invSbox : ∀ x : Byte, sbox (invSbox x) = x := by
  have hleft : Function.LeftInverse invSbox sbox := invSbox_sbox
  exact hleft.rightInverse_of_surjective (Finite.injective_iff_surjective.1 hleft.injective)

/-- The affine map of R114. -/
def sboxAffine (x : Byte) : Byte :=
  x ^^^ x.rotateLeft 1 ^^^ x.rotateLeft 2 ^^^ x.rotateLeft 3 ^^^ x.rotateLeft 4 ^^^ 0x63

/-- The affine map that undoes R114's. -/
def sboxAffineInverse (y : Byte) : Byte :=
  y.rotateLeft 1 ^^^ y.rotateLeft 3 ^^^ y.rotateLeft 6 ^^^ 0x05

theorem sboxAffine_sboxAffineInverse : ∀ y : Byte, sboxAffine (sboxAffineInverse y) = y := by
  decide +kernel

/-- The field inverse R114 builds SBOX from, read off the table: the `x` whose affine image is `SBOX[a]`. -/
def fieldInverse (a : Byte) : Byte :=
  sboxAffineInverse (sbox a)

theorem sbox_eq_sboxAffine_fieldInverse (a : Byte) : sbox a = sboxAffine (fieldInverse a) :=
  (sboxAffine_sboxAffineInverse (sbox a)).symm

/-- One product for each nonzero byte. -/
theorem multiply_fieldInverse : ∀ a : Byte, a ≠ 0 → multiply a (fieldInverse a) = 1 := by
  decide +kernel

/-- Settles O18: commutativity and the operand 3 follow from distributivity, and SBOX holds the inverses. -/
theorem multiplyLaws : Obligations.MultiplyLaws :=
  ⟨multiply_comm, multiply_xor,
    fun a => ⟨multiply_zero a, zero_multiply a, multiply_one a, multiply_two a, multiply_three a⟩,
    fun a ha => ⟨fieldInverse a, multiply_fieldInverse a ha⟩⟩

/-- Settles O19: the tables undo each other, and the `x` read off `SBOX[a]` is the inverse of `a`. -/
theorem sboxInverseAndDerivation : Obligations.SboxInverseAndDerivation :=
  ⟨fun x => ⟨invSbox_sbox x, sbox_invSbox x⟩, rfl,
    fun a ha => ⟨fieldInverse a, multiply_fieldInverse a ha, sbox_eq_sboxAffine_fieldInverse a⟩⟩

/-! ### The matrices and the round constants (R116 to R118) -/

theorem mixRow_rotates : ∀ r k : Fin 4, (mixRow r)[k.val] = (mixRow 0)[(k - r).val] := by
  decide

theorem invMixRow_rotates : ∀ r k : Fin 4, (invMixRow r)[k.val] = (invMixRow 0)[(k - r).val] := by
  decide

/-- The 16 entries of the product of INVMIX and MIX. -/
theorem invMixRow_mul_mixRow : ∀ r c : Fin 4,
    multiply (invMixRow r)[0] (mixRow 0)[c.val] ^^^ multiply (invMixRow r)[1] (mixRow 1)[c.val] ^^^
      multiply (invMixRow r)[2] (mixRow 2)[c.val] ^^^ multiply (invMixRow r)[3] (mixRow 3)[c.val] =
        if r = c then 1 else 0 := by
  decide +kernel

/-- Settles O20: the rotations row by row, and the product entry by entry. -/
theorem mixMatricesAreInverse : Obligations.MixMatricesAreInverse :=
  ⟨fun r k => ⟨mixRow_rotates r k, invMixRow_rotates r k⟩, rfl, rfl, invMixRow_mul_mixRow⟩

theorem rc_succ_eq_double {j : Nat} (h1 : 1 ≤ j) (h9 : j ≤ 9) : rc (j + 1) = double (rc j) := by
  interval_cases j <;> rfl

/-- Settles O21: multiplying by 2 is the doubling rule. -/
theorem roundConstantsByDoubling : Obligations.RoundConstantsByDoubling := by
  refine ⟨rfl, fun j h2 h10 => ?_⟩
  obtain ⟨i, rfl⟩ := Nat.exists_eq_add_of_le' (show 1 ≤ j by omega)
  rw [multiply_comm, multiply_two]
  exact rc_succ_eq_double (by omega) (by omega)

/-! ### GFMUL (R119) -/

/-- The word of a command as a number (R90). -/
theorem encode_eq_ofNat (i : Instr) :
    encode i = BitVec.ofNat 32 (i.mnemonic.opcode.toNat + 256 * i.fieldA.toNat + 65536 * i.fieldB.toNat) := by
  apply BitVec.eq_of_toNat_eq
  have hop := i.mnemonic.opcode.isLt
  have ha := i.fieldA.isLt
  have hb := i.fieldB.isLt
  rw [encode, BitVec.toNat_append, BitVec.toNat_append, BitVec.toNat_append,
    ← Nat.shiftLeft_add_eq_or_of_lt hop, ← Nat.shiftLeft_add_eq_or_of_lt ha, ← Nat.shiftLeft_add_eq_or_of_lt hb]
  simp only [Nat.shiftLeft_eq, BitVec.toNat_ofNat]
  omega

/-- The first check of R94. -/
theorem decode_of_rsvField_ne_zero {cw : Reg32} (h : rsvField cw ≠ 0) : decode cw = .error .reservedNonzero :=
  if_pos h

/-- Settles O17: the word by its fields, the effect by GFMUL's meaning, the corner cases by the laws of R112. -/
theorem gfmulWritesProduct : Obligations.GfmulWritesProduct :=
  ⟨fun a b s => ⟨encode_eq_ofNat (.gfmul a b), exec_eq_afterCommand (.gfmul a b) s⟩,
    fun a => ⟨multiply_zero a, zero_multiply a, multiply_one a⟩,
    fun _ hrsv _ => decode_of_rsvField_ne_zero hrsv,
    encode_eq_ofNat (.gfmul 15 6), by decide⟩

end Sys2Proof.Machine
end

section
/-! SUPPORT. The key scheduler (42_key_schedule.md): the word functions, the words of an expansion, the command KEXP,
and that every other event but the reset input leaves the schedule. -/

namespace Sys2Proof.Machine

/-! ### The word functions and the expansion (R130 to R133) -/

theorem xorBytes_rcon (t : Word) (j : Nat) : xorBytes t (rcon j) = #v[t[0] ^^^ rc j, t[1], t[2], t[3]] := by
  apply Vector.ext
  intro i hi
  interval_cases i <;> simp [xorBytes, rcon]

/-- Settles O22: each word function is written byte by byte; XOR with a round constant meets three zero bytes. -/
theorem wordFunctions : Obligations.WordFunctions :=
  fun b0 b1 b2 b3 j => ⟨rfl, rfl, rfl, xorBytes_rcon #v[b0, b1, b2, b3] j⟩

theorem byteAt_wordAt_keyWords (key : List Byte) {n k j : Nat} (hk : k < n) (hj : j < 4) :
    byteAt (wordAt (keyWords key n) k) j = key.getD (4 * k + j) 0 := by
  rw [byteAt_eq_getElem _ _ hj]
  simp [wordAt, keyWords, wordOfBytes, List.getD_eq_getElem?_getD, hk]

/-- The first words of an expansion are the key's (R133, first loop). -/
theorem wordAt_expand_of_lt (key : List Byte) {k : Nat} (hk : k < key.length / 4) :
    wordAt (expand key) k = wordAt (keyWords key (key.length / 4)) k :=
  expandLoop_below _ _ _ k (by rwa [length_keyWords])

/-- Settles O23: the expansion keeps the key's words, and each word its loop adds follows the recurrence. -/
theorem expansionFollowsRecurrence : Obligations.ExpansionFollowsRecurrence := by
  intro key hkey
  refine ⟨length_expand key, fun k j hk hj => ?_, fun i h1 h2 => wordAt_expand key (by omega) h1 h2⟩
  rw [wordAt_expand_of_lt key hk, byteAt_wordAt_keyWords key hk hj]

/-! ### KEXP (R138) -/

theorem exec_kexp_illegal {s : State} (h : ¬ KeyLenLegal s) :
    exec .kexp s = .next { s with err := 0x01, errInfo := s.keyLen } := by
  rw [exec_eq_endCommand, commandEffect_kexp_illegal h]
  rfl

/-- Every word of the store after KEXP: the expansion's where the schedule reaches, and otherwise as it was. -/
theorem KeyLenLegal.scheduleWord_kexp {s : State} (h : KeyLenLegal s) {w : Nat} (hw : w < 60) :
    scheduleWord (writeSchedule (expand (keyBytes s)) s.ks) w =
      if w < 4 * (roundsOf (s.keyLen.toNat / 4) + 1) then wordAt (expand (keyBytes s)) w else scheduleWord s.ks w := by
  rw [scheduleWord_writeSchedule _ _ _ hw, length_expand, length_keyBytes s h]

/-- The key `00 01 .. 0f` of R138's example. -/
def exampleKey : List Byte :=
  (List.range 16).map (BitVec.ofNat 8)

theorem keyBytes_eq_exampleKey {s : State} (hlen : s.keyLen = 16)
    (hkey : ∀ i, i < 16 → byteAt s.key i = BitVec.ofNat 8 i) : keyBytes s = exampleKey := by
  have htake : s.key.toList.take exampleKey.length = exampleKey := by
    refine take_key_of_bytes s.key exampleKey (by decide) fun j hj => ?_
    have hj16 : j < 16 := hj
    rw [hkey j hj16]
    simp [exampleKey, List.getD_eq_getElem?_getD, hj16]
  rw [keyBytes, hlen]
  exact htake

theorem wordAt_expand_exampleKey :
    wordAt (expand exampleKey) 4 = #v[0xd6, 0xaa, 0x74, 0xfd] ∧
      wordAt (expand exampleKey) 43 = #v[0x4d, 0x2b, 0x30, 0xc5] := by
  decide +kernel

/-- Settles O24: a legal length has the effect `loadSchedule`, seen word by word; any other aborts; the example runs. -/
theorem kexpBuildsOrRejects : Obligations.KexpBuildsOrRejects := by
  refine ⟨rfl, fun s h => ?_, fun s h16 h24 h32 => ?_, fun s hlen hkey => ?_⟩
  · exact ⟨_, exec_kexp_legal s h, rfl, fun w hw => KeyLenLegal.scheduleWord_kexp h hw⟩
  · exact exec_kexp_illegal (by rintro (h | h | h) <;> contradiction)
  · have hlegal : KeyLenLegal s := .inl hlen
    have hword := fun {w : Nat} => hlegal.scheduleWord_write s.ks (w := w)
    rw [keyBytes_eq_exampleKey hlen hkey, hlen] at hword
    obtain ⟨h4, h43⟩ := wordAt_expand_exampleKey
    refine ⟨_, exec_kexp_legal s hlegal, ?_, ?_, rfl, ?_, ?_⟩
    · simp [hlen]
    · simp [hlen, roundsOf]
    · simpa [keyBytes_eq_exampleKey hlen hkey] using (hword (by decide)).trans h4
    · simpa [keyBytes_eq_exampleKey hlen hkey] using (hword (by decide)).trans h43

/-! ### What leaves the schedule (R140) -/

/-- A command other than KEXP leaves the schedule. -/
theorem exec_schedule {i : Instr} {s t : State} (h : exec i s = .next t) (hi : i ≠ .kexp) :
    t.ks = s.ks ∧ t.nk = s.nk ∧ t.nr = s.nr ∧ t.kvalid = s.kvalid := by
  rw [eq_endCommand_of_exec h]
  cases he : commandEffect i s with
  | error f => simp [endCommand]
  | ok e =>
    refine e.apply_schedule s ?_
    rintro rfl
    exact hi (allowed_of_commandEffect he).1

/-- An issued word other than KEXP's leaves the schedule: no other word decodes to KEXP. -/
theorem serve_issue_schedule {cw : Reg32} {s t : State} (h : serve (.issue cw) s = .next t)
    (hcw : cw ≠ encode .kexp) : t.ks = s.ks ∧ t.nk = s.nk ∧ t.nr = s.nr ∧ t.kvalid = s.kvalid := by
  cases hd : decode cw with
  | ok i =>
    rw [serve_issue_ok cw i s hd] at h
    have hi : i ≠ .kexp := by
      rintro rfl
      exact hcw (encode_of_decode hd).symm
    simpa using exec_schedule h hi
  | error x =>
    rw [serve_issue_error cw x s hd] at h
    cases h
    exact ⟨rfl, rfl, rfl, rfl⟩

theorem HostWrite.schedule {s u : State} {e : HostEvent} (h : HostWrite s e u) :
    u.ks = s.ks ∧ u.nk = s.nk ∧ u.nr = s.nr ∧ u.kvalid = s.kvalid := by
  rw [h.frame]
  exact ⟨rfl, rfl, rfl, rfl⟩

/-- Settles O26: waiting, every issued word but KEXP's, and every transaction on another port leave the schedule. -/
theorem scheduleWrittenOnlyByKexp : Obligations.ScheduleWrittenOnlyByKexp := by
  intro s t ht hreset hkexp
  rcases step_inv ht with ⟨-, rfl⟩ | ⟨e, rest, hs, hserve⟩
  · exact ⟨rfl, rfl, rfl, rfl⟩
  by_cases hissue : ∃ cw, e = .issue cw
  · obtain ⟨cw, rfl⟩ := hissue
    have hcw : cw ≠ encode .kexp := by
      rintro rfl
      exact hkexp rest hs
    simpa using serve_issue_schedule hserve hcw
  · have hr : e ≠ .reset := fun h => hreset rest (h ▸ hs)
    obtain ⟨r, u, hu, rfl⟩ := serve_transaction hr (fun cw h => hissue ⟨cw, h⟩) hserve
    exact hu.schedule

end Sys2Proof.Machine
end

section
/-! SUPPORT. The round primitives (43_round_primitives.md): each State function byte by byte, its inverse, and the
command that applies it. MIXC and IMIXC are two cases of one matrix product. -/

namespace Sys2Proof.Machine

/-- A command whose effect writes ST succeeds and changes nothing else. -/
theorem exec_of_writeSt {i : Instr} {s : State} {b : Block} (h : commandEffect i s = .ok (.writeSt b)) :
    exec i s = .next { s with st := b, err := 0, errInfo := 0 } := by
  rw [exec_eq_endCommand, h]
  rfl

/-- Two States are equal when their cells are. -/
theorem block_eq_of_cell {a b : Block} (h : ∀ c r, cell a c r = cell b c r) : a = b := by
  rw [← ofCells_cell a, ← ofCells_cell b, funext fun c => funext (h c)]

/-! ### The State of the rules' examples, after each step (R150, R151, R153) -/

/-- The State SUBB's example starts from. -/
def exampleSt : Block :=
  #v[0x00, 0x10, 0x20, 0x30, 0x40, 0x50, 0x60, 0x70, 0x80, 0x90, 0xa0, 0xb0, 0xc0, 0xd0, 0xe0, 0xf0]

/-- After SUBB. -/
def exampleSubbed : Block :=
  #v[0x63, 0xca, 0xb7, 0x04, 0x09, 0x53, 0xd0, 0x51, 0xcd, 0x60, 0xe0, 0xe7, 0xba, 0x70, 0xe1, 0x8c]

/-- After SHROW. -/
def exampleShifted : Block :=
  #v[0x63, 0x53, 0xe0, 0x8c, 0x09, 0x60, 0xe1, 0x04, 0xcd, 0x70, 0xb7, 0x51, 0xba, 0xca, 0xd0, 0xe7]

/-- After MIXC. -/
def exampleMixed : Block :=
  #v[0x5f, 0x72, 0x64, 0x15, 0x57, 0xf5, 0xbc, 0x92, 0xf7, 0xbe, 0x3b, 0x29, 0x1d, 0xb9, 0xf9, 0x1a]

theorem subBytes_exampleSt : subBytes exampleSt = exampleSubbed := by
  decide +kernel

theorem shiftRows_exampleSubbed : shiftRows exampleSubbed = exampleShifted := by
  decide +kernel

theorem mixColumns_exampleShifted : mixColumns exampleShifted = exampleMixed := by
  decide +kernel

/-! ### The byte substitutions (R150, R155) -/

theorem subBytes_eq_map (s : Block) : subBytes s = s.map sbox :=
  Vector.ext fun i hi => by simp [subBytes]

theorem invSubBytes_eq_map (s : Block) : invSubBytes s = s.map invSbox :=
  Vector.ext fun i hi => by simp [invSubBytes]

theorem byteAt_map (f : Byte → Byte) (s : Block) {i : Nat} (hi : i < 16) : byteAt (s.map f) i = f (byteAt s i) := by
  rw [byteAt_eq_getElem _ _ hi, byteAt_eq_getElem _ _ hi, Vector.getElem_map]

theorem invSubBytes_subBytes (s : Block) : invSubBytes (subBytes s) = s := by
  simp [subBytes_eq_map, invSubBytes_eq_map, Function.comp_def]

theorem subBytes_invSubBytes (s : Block) : subBytes (invSubBytes s) = s := by
  simp [subBytes_eq_map, invSubBytes_eq_map, Function.comp_def]

theorem invSubBytes_exampleSubbed : invSubBytes exampleSubbed = exampleSt := by
  rw [← subBytes_exampleSt, invSubBytes_subBytes]

theorem sbox_ne_self : ∀ x : Byte, sbox x ≠ x := by
  decide +kernel

/-- Settles O27: SUBB maps SBOX over the State. -/
theorem subbLooksUpEveryByte : Obligations.SubbLooksUpEveryByte := by
  refine ⟨rfl, fun s => ⟨_, exec_of_writeSt rfl, rfl, fun i hi => ?_⟩, rfl, sbox_ne_self, fun x => ?_,
    subBytes_exampleSt⟩
  · rw [subBytes_eq_map, byteAt_map sbox _ hi]
  · rw [subBytes_eq_map, Vector.map_replicate]

/-- Settles O31: ISUBB maps INVSBOX over the State; its example is SUBB's, undone. -/
theorem isubbLooksUpEveryByte : Obligations.IsubbLooksUpEveryByte := by
  refine ⟨rfl, fun s => ⟨_, exec_of_writeSt rfl, rfl, fun i hi => ?_⟩, invSubBytes_exampleSubbed⟩
  rw [invSubBytes_eq_map, byteAt_map invSbox _ hi]

/-! ### The row shifts (R151, R156) -/

@[simp] theorem cell_shiftRows (s : Block) (c r : Fin 4) : cell (shiftRows s) c r = cell s (c + r) r :=
  cell_ofCells _ c r

@[simp] theorem cell_invShiftRows (s : Block) (c r : Fin 4) : cell (invShiftRows s) c r = cell s (c - r) r :=
  cell_ofCells _ c r

theorem byteAt_shiftRows (s : Block) {c r : Nat} (hc : c < 4) (hr : r < 4) :
    byteAt (shiftRows s) (4 * c + r) = byteAt s (4 * ((c + r) % 4) + r) := by
  rw [shiftRows, byteAt_ofCells _ _ _ hc hr, cell_eq_byteAt, Fin.val_add]

theorem byteAt_invShiftRows (s : Block) {c r : Nat} (hc : c < 4) (hr : r < 4) :
    byteAt (invShiftRows s) (4 * c + r) = byteAt s (4 * ((c + 4 - r) % 4) + r) := by
  rw [invShiftRows, byteAt_ofCells _ _ _ hc hr, cell_eq_byteAt, Fin.val_sub,
    show 4 - r + c = c + 4 - r by omega]

theorem invShiftRows_shiftRows (s : Block) : invShiftRows (shiftRows s) = s :=
  block_eq_of_cell fun c r => by simp

theorem shiftRows_invShiftRows (s : Block) : shiftRows (invShiftRows s) = s :=
  block_eq_of_cell fun c r => by simp

theorem invShiftRows_exampleShifted : invShiftRows exampleShifted = exampleSubbed := by
  rw [← shiftRows_exampleSubbed, invShiftRows_shiftRows]

/-- Row `r` has moved `4r` columns. -/
theorem shiftRows_four_times (s : Block) : shiftRows (shiftRows (shiftRows (shiftRows s))) = s := by
  have hcycle : ∀ c r : Fin 4, c + r + r + r + r = c := by decide
  exact block_eq_of_cell fun c r => by simp [hcycle]

/-- Settles O28: rows 0 and 2 are the general shift, once by 0 and twice by 2. -/
theorem shrowShiftsRowsLeft : Obligations.ShrowShiftsRowsLeft := by
  refine ⟨rfl, fun s => ⟨_, exec_of_writeSt rfl, rfl, fun c r hc hr => byteAt_shiftRows s.st hc hr⟩,
    fun s c hc => ⟨?_, ?_⟩, shiftRows_exampleSubbed⟩
  · simpa [Nat.mod_eq_of_lt hc] using byteAt_shiftRows s hc (r := 0) (by decide)
  · rw [byteAt_shiftRows _ hc (by decide), byteAt_shiftRows _ (by omega) (by decide)]
    congr 1
    omega

/-- Settles O32: row 0 is the general shift by 0; the example is SHROW's, undone. -/
theorem ishrowShiftsRowsRight : Obligations.IshrowShiftsRowsRight := by
  refine ⟨rfl, fun s => ⟨_, exec_of_writeSt rfl, rfl, fun c r hc hr => byteAt_invShiftRows s.st hc hr⟩,
    fun s c hc => ?_, invShiftRows_exampleShifted⟩
  simpa [Nat.mod_eq_of_lt hc] using byteAt_invShiftRows s hc (r := 0) (by decide)

/-! ### Matrix products on columns -/

@[simp] theorem one_multiply (a : Byte) : multiply 1#8 a = a :=
  (multiply_comm 1 a).trans (multiply_one a)

/-- An entry of the identity matrix times a byte. -/
theorem ite_multiply (p : Prop) [Decidable p] (a : Byte) : multiply (if p then 1 else 0) a = if p then a else 0 := by
  split
  · exact one_multiply a
  · exact zero_multiply a

/-- Both sides are additive in each operand, so the powers of x decide: 512 products. -/
theorem multiply_assoc (a b c : Byte) : multiply (multiply a b) c = multiply a (multiply b c) := by
  have hpowers : ∀ i j k : Fin 8,
      multiply (multiply (BitVec.twoPow 8 i) (BitVec.twoPow 8 j)) (BitVec.twoPow 8 k) =
        multiply (BitVec.twoPow 8 i) (multiply (BitVec.twoPow 8 j) (BitVec.twoPow 8 k)) := by
    decide +kernel
  refine additive_ext (multiply (multiply a b)) (fun c => multiply a (multiply b c)) (multiply_xor _)
    (by simp [multiply_xor]) (fun k => ?_) c
  refine additive_ext (fun b => multiply (multiply a b) _) (fun b => multiply a (multiply b _))
    (by simp [multiply_xor, xor_multiply]) (by simp [multiply_xor, xor_multiply]) (fun j => ?_) b
  exact additive_ext (fun a => multiply (multiply a _) _) (multiply · _) (by simp [xor_multiply])
    (by simp [xor_multiply]) (hpowers · j k) a

/-- The rows of a 4 by 4 matrix of field elements, as R116 and R117 give MIX and INVMIX. -/
abbrev Matrix4 := Fin 4 → Vector Byte 4

/-- Every column of a State times a matrix: what `mixColumns` and `invMixColumns` are. -/
def mulColumns (m : Matrix4) (s : Block) : Block :=
  ofCells fun c r => rowTimesColumn (m r) s c

theorem mixColumns_eq_mulColumns : mixColumns = mulColumns mixRow := rfl

theorem invMixColumns_eq_mulColumns : invMixColumns = mulColumns invMixRow := rfl

@[simp] theorem cell_mulColumns (m : Matrix4) (s : Block) (c r : Fin 4) :
    cell (mulColumns m s) c r = rowTimesColumn (m r) s c :=
  cell_ofCells _ c r

theorem byteAt_mulColumns (m : Matrix4) (s : Block) {c : Nat} (hc : c < 4) (r : Fin 4) :
    byteAt (mulColumns m s) (4 * c + r.val) =
      multiply (m r)[0] (byteAt s (4 * c)) ^^^ multiply (m r)[1] (byteAt s (4 * c + 1)) ^^^
        multiply (m r)[2] (byteAt s (4 * c + 2)) ^^^ multiply (m r)[3] (byteAt s (4 * c + 3)) :=
  (byteAt_ofCells _ c r.val hc r.isLt).trans (rowTimesColumn_eq_bytes _ _ _)

/-- Entry `(r, j)` of the product of two matrices. -/
def mulEntry (m n : Matrix4) (r j : Fin 4) : Byte :=
  multiply (m r)[0] (n 0)[j.val] ^^^ multiply (m r)[1] (n 1)[j.val] ^^^
    multiply (m r)[2] (n 2)[j.val] ^^^ multiply (m r)[3] (n 3)[j.val]

/-- A row times a column already multiplied: the sum over both indices, in the other order. -/
theorem rowTimesColumn_mulColumns (m n : Matrix4) (s : Block) (c r : Fin 4) :
    rowTimesColumn (m r) (mulColumns n s) c =
      multiply (mulEntry m n r 0) (cell s c 0) ^^^ multiply (mulEntry m n r 1) (cell s c 1) ^^^
        multiply (mulEntry m n r 2) (cell s c 2) ^^^ multiply (mulEntry m n r 3) (cell s c 3) := by
  simp only [rowTimesColumn, cell_mulColumns, mulEntry, multiply_xor, xor_multiply, multiply_assoc]
  ac_rfl

/-- Where the product of two matrices is the identity, the second undoes on every State what the first does. -/
theorem mulColumns_mulColumns {m n : Matrix4} (h : ∀ r j, mulEntry m n r j = if r = j then 1 else 0) (s : Block) :
    mulColumns m (mulColumns n s) = s := by
  refine block_eq_of_cell fun c r => ?_
  simp only [cell_mulColumns, rowTimesColumn_mulColumns, h, ite_multiply]
  fin_cases r <;> simp

/-- A column of four equal bytes keeps its bytes where each row of the matrix sums to 1. -/
theorem byteAt_mulColumns_of_equal_bytes {m : Matrix4} (hm : ∀ r, (m r)[0] ^^^ (m r)[1] ^^^ (m r)[2] ^^^ (m r)[3] = 1)
    {s : Block} {c : Nat} {x : Byte} (hc : c < 4) (hx : ∀ k, k < 4 → byteAt s (4 * c + k) = x)
    (k : Nat) (hk : k < 4) : byteAt (mulColumns m s) (4 * c + k) = x := by
  have hx0 : byteAt s (4 * c) = x := hx 0 (by decide)
  rw [byteAt_mulColumns m s hc ⟨k, hk⟩, hx0, hx 1 (by decide), hx 2 (by decide), hx 3 (by decide),
    ← xor_multiply, ← xor_multiply, ← xor_multiply, hm]
  exact one_multiply x

/-! ### MIXC and IMIXC (R153, R157) -/

/-- The 16 entries of the product of MIX and INVMIX. -/
theorem mixRow_mul_invMixRow : ∀ r j, mulEntry mixRow invMixRow r j = if r = j then 1 else 0 := by
  decide +kernel

theorem invMixColumns_mixColumns (s : Block) : invMixColumns (mixColumns s) = s :=
  mulColumns_mulColumns invMixRow_mul_mixRow s

theorem mixColumns_invMixColumns (s : Block) : mixColumns (invMixColumns s) = s :=
  mulColumns_mulColumns mixRow_mul_invMixRow s

theorem invMixColumns_exampleMixed : invMixColumns exampleMixed = exampleShifted := by
  rw [← mixColumns_exampleShifted, invMixColumns_mixColumns]

theorem mixRow_sum : ∀ r, (mixRow r)[0] ^^^ (mixRow r)[1] ^^^ (mixRow r)[2] ^^^ (mixRow r)[3] = 1 := by
  decide

theorem invMixRow_sum :
    ∀ r, (invMixRow r)[0] ^^^ (invMixRow r)[1] ^^^ (invMixRow r)[2] ^^^ (invMixRow r)[3] = 1 := by
  decide

/-- R153's four sums for one column. -/
theorem bytes_mixColumns {s : Block} {c : Nat} (hc : c < 4) {a0 a1 a2 a3 : Byte} (ha0 : byteAt s (4 * c) = a0)
    (ha1 : byteAt s (4 * c + 1) = a1) (ha2 : byteAt s (4 * c + 2) = a2) (ha3 : byteAt s (4 * c + 3) = a3) :
    byteAt (mixColumns s) (4 * c) = multiply 2 a0 ^^^ multiply 3 a1 ^^^ a2 ^^^ a3 ∧
      byteAt (mixColumns s) (4 * c + 1) = a0 ^^^ multiply 2 a1 ^^^ multiply 3 a2 ^^^ a3 ∧
      byteAt (mixColumns s) (4 * c + 2) = a0 ^^^ a1 ^^^ multiply 2 a2 ^^^ multiply 3 a3 ∧
      byteAt (mixColumns s) (4 * c + 3) = multiply 3 a0 ^^^ a1 ^^^ a2 ^^^ multiply 2 a3 := by
  have hbyte := byteAt_mulColumns mixRow s hc
  rw [← mixColumns_eq_mulColumns, ha0, ha1, ha2, ha3] at hbyte
  exact ⟨by simpa [mixRow] using hbyte 0, by simpa [mixRow] using hbyte 1, by simpa [mixRow] using hbyte 2,
    by simpa [mixRow] using hbyte 3⟩

/-- R157's four sums for one column. -/
theorem bytes_invMixColumns {s : Block} {c : Nat} (hc : c < 4) {a0 a1 a2 a3 : Byte} (ha0 : byteAt s (4 * c) = a0)
    (ha1 : byteAt s (4 * c + 1) = a1) (ha2 : byteAt s (4 * c + 2) = a2) (ha3 : byteAt s (4 * c + 3) = a3) :
    byteAt (invMixColumns s) (4 * c) = multiply 14 a0 ^^^ multiply 11 a1 ^^^ multiply 13 a2 ^^^ multiply 9 a3 ∧
      byteAt (invMixColumns s) (4 * c + 1) = multiply 9 a0 ^^^ multiply 14 a1 ^^^ multiply 11 a2 ^^^ multiply 13 a3 ∧
      byteAt (invMixColumns s) (4 * c + 2) = multiply 13 a0 ^^^ multiply 9 a1 ^^^ multiply 14 a2 ^^^ multiply 11 a3 ∧
      byteAt (invMixColumns s) (4 * c + 3) = multiply 11 a0 ^^^ multiply 13 a1 ^^^ multiply 9 a2 ^^^ multiply 14 a3 := by
  have hbyte := byteAt_mulColumns invMixRow s hc
  rw [ha0, ha1, ha2, ha3] at hbyte
  exact ⟨hbyte 0, hbyte 1, hbyte 2, hbyte 3⟩

/-- Settles O29: the four sums of MIX, and on the example column they are closed. -/
theorem mixcMultipliesColumns : Obligations.MixcMultipliesColumns := by
  refine ⟨rfl, fun s => ⟨_, exec_of_writeSt rfl, rfl, fun c hc a0 a1 a2 a3 e0 e1 e2 e3 => ?_⟩,
    fun s c hc e0 e1 e2 e3 => ?_, mixColumns_exampleShifted⟩
  · exact bytes_mixColumns hc e0.symm e1.symm e2.symm e3.symm
  · exact bytes_mixColumns hc e0 e1 e2 e3

/-- Settles O33: the four sums of INVMIX; the inverse law by the product of the matrices; the second example is MIXC's,
undone. -/
theorem imixcMultipliesColumns : Obligations.ImixcMultipliesColumns := by
  refine ⟨rfl, fun s => ⟨_, exec_of_writeSt rfl, rfl, fun c hc a0 a1 a2 a3 e0 e1 e2 e3 => ?_⟩,
    fun s c x hc hx => byteAt_mulColumns_of_equal_bytes invMixRow_sum hc hx, invMixColumns_mixColumns,
    fun s c hc e0 e1 e2 e3 => ?_, invMixColumns_exampleMixed⟩
  · exact bytes_invMixColumns hc e0.symm e1.symm e2.symm e3.symm
  · exact bytes_invMixColumns hc e0 e1 e2 e3

/-! ### ADDRK (R154) -/

theorem commandEffect_addrk_noSchedule (r : Byte) {s : State} (hv : s.kvalid = false) :
    commandEffect (.addrk r) s = .error ⟨.noKeySchedule, 0⟩ :=
  if_pos hv

theorem commandEffect_addrk_badIndex {r : Byte} {s : State} (hv : s.kvalid = true) (hr : s.nr.toNat < r.toNat) :
    commandEffect (.addrk r) s = .error ⟨.badRoundIndex, r.zeroExtend 32⟩ :=
  needSchedule_eq_error.2 (.inr ⟨hv, if_pos hr⟩)

theorem byteAt_addRoundKey (b : Block) (s : State) (r : Nat) {c j : Nat} (hc : c < 4) (hj : j < 4) :
    byteAt (addRoundKey b (roundKey (schedule s) r)) (4 * c + j) =
      byteAt b (4 * c + j) ^^^ byteAt (scheduleWord s.ks (4 * r + c)) j := by
  rw [addRoundKey, byteAt_xorBytes _ _ _ (by omega), byteAt_roundKey _ _ _ _ hc hj, schedule]

/-- Issued twice with a legal index, ADDRK restores ST: the first leaves the schedule. -/
theorem st_of_addrk_twice {r : Byte} {s t u : State} (hv : s.kvalid = true) (hr : r.toNat ≤ s.nr.toNat)
    (ht : exec (.addrk r) s = .next t) (hu : exec (.addrk r) t = .next u) : u.st = s.st := by
  rw [exec_addrk_legal r s hv hr] at ht
  cases ht
  rw [exec_addrk_legal r _ (by simpa using hv) (by simpa using hr)] at hu
  cases hu
  exact xorBytes_cancel_right s.st _

/-- Settles O30: the two failures of ADDRK's effect, then the round key byte by byte; the example runs. -/
theorem addrkChecksThenXors : Obligations.AddrkChecksThenXors := by
  refine ⟨fun r => encode_eq_ofNat (.addrk r), fun r s hv => ?_, fun r s hv hr => ?_, fun r s hv hr => ?_,
    fun s hv hwords hst => ?_⟩
  · rw [exec_eq_endCommand, commandEffect_addrk_noSchedule r hv]
    rfl
  · rw [exec_eq_endCommand, commandEffect_addrk_badIndex hv hr, BitVec.ofNat_toNat]
    rfl
  · exact ⟨_, exec_addrk_legal r s hv hr, rfl, fun c j hc hj => byteAt_addRoundKey s.st s r.toNat hc hj⟩
  · refine ⟨_, exec_addrk_legal 0 s hv (Nat.zero_le _), block_ext_cells _ _ fun c j hc hj => ?_⟩
    refine (byteAt_addRoundKey s.st s 0 hc hj).trans ?_
    rw [hst, Nat.mul_zero, Nat.zero_add, hwords c hc]
    interval_cases c <;> interval_cases j <;> rfl

/-- Settles O34: the inverse laws of this family, one for each primitive. -/
theorem primitivesUndoOneAnother : Obligations.PrimitivesUndoOneAnother :=
  fun s =>
    ⟨⟨invSubBytes_subBytes s, subBytes_invSubBytes s⟩, ⟨invShiftRows_shiftRows s, shiftRows_invShiftRows s⟩,
      shiftRows_four_times s, ⟨invMixColumns_mixColumns s, mixColumns_invMixColumns s⟩, xorBytes_cancel_right s,
      fun _ _ _ _ hst hv hr ht hu => (st_of_addrk_twice hv hr ht hu).trans hst,
      fun _ _ hc hx => byteAt_mulColumns_of_equal_bytes mixRow_sum hc hx⟩

end Sys2Proof.Machine
end

section
/-! SUPPORT. The block cipher (44_block_cipher.md): Encrypt and Decrypt undo each other round by round, the commands
ENCB and DECB, the primitive commands they equal, and that every step ends. -/

namespace Sys2Proof.Machine

/-! ### Every step ends (R176, 70_reset_and_hazards.md R274, R276) -/

theorem exists_serve_eq_next (e : HostEvent) (s : State) : ∃ t, serve e s = .next t := by
  cases e with
  | issue cw =>
    cases h : decode cw with
    | ok i => exact ⟨_, (serve_issue_ok cw i s h).trans (exec_eq_endCommand i _)⟩
    | error x => exact ⟨_, serve_issue_error cw x s h⟩
  | _ => exact ⟨_, rfl⟩

/-- Settles O16: with no event the core waits, and serving each kind of event ends. -/
theorem everyStepCompletes : Obligations.EveryStepCompletes := by
  intro s
  cases h : s.inputs with
  | nil => exact ⟨s, idleCoreWaits s h⟩
  | cons e rest => simpa only [step_cons s e rest h] using exists_serve_eq_next e _

/-! ### Decrypt and Encrypt undo each other (R174) -/

theorem addRoundKey_addRoundKey (s k : Block) : addRoundKey (addRoundKey s k) k = s :=
  xorBytes_cancel_right s k

/-- A round of R172 takes a State that has passed SubBytes and ShiftRows back across the round of R170 with its key. -/
theorem decryptRound_encryptRound (k : Schedule) (r : Nat) (s : Block) :
    decryptRound k r (shiftRows (subBytes (encryptRound k r s))) = shiftRows (subBytes s) := by
  simp only [decryptRound, encryptRound, invShiftRows_shiftRows, invSubBytes_subBytes, addRoundKey_addRoundKey,
    invMixColumns_mixColumns]

/-- A round of R170 takes a State that has passed InvShiftRows and InvSubBytes back across the round of R172. -/
theorem encryptRound_decryptRound (k : Schedule) (r : Nat) (s : Block) :
    encryptRound k r (invSubBytes (invShiftRows (decryptRound k r s))) = invSubBytes (invShiftRows s) := by
  simp only [decryptRound, encryptRound, subBytes_invSubBytes, shiftRows_invShiftRows, mixColumns_invMixColumns,
    addRoundKey_addRoundKey]

theorem decryptRounds_encryptRounds (k : Schedule) (n : Nat) (s : Block) :
    decryptRounds k n (shiftRows (subBytes (encryptRounds k n s))) = shiftRows (subBytes s) := by
  induction n with
  | zero => rfl
  | succ n ih => rw [encryptRounds, decryptRounds, decryptRound_encryptRound, ih]

theorem encryptRounds_decryptRounds (k : Schedule) (n : Nat) (s : Block) :
    encryptRounds k n (invSubBytes (invShiftRows (decryptRounds k n s))) = invSubBytes (invShiftRows s) := by
  induction n generalizing s with
  | zero => rfl
  | succ n ih => rw [decryptRounds, encryptRounds, ih, encryptRound_decryptRound]

theorem decrypt_encrypt (k : Schedule) (s : Block) : decrypt k (encrypt k s) = s := by
  simp only [decrypt, encrypt, addRoundKey_addRoundKey, decryptRounds_encryptRounds, invShiftRows_shiftRows,
    invSubBytes_subBytes]

theorem encrypt_decrypt (k : Schedule) (s : Block) : encrypt k (decrypt k s) = s := by
  simp only [decrypt, encrypt, addRoundKey_addRoundKey, encryptRounds_decryptRounds, subBytes_invSubBytes,
    shiftRows_invShiftRows]

/-- Settles O37: the middle rounds undo each other by induction, the first and last steps one by one. -/
theorem decryptInvertsEncrypt : Obligations.DecryptInvertsEncrypt :=
  fun k s => ⟨decrypt_encrypt k s, encrypt_decrypt k s⟩

/-! ### ENCB and DECB (R171, R173) -/

theorem exec_encb {s : State} (hv : s.kvalid = true) :
    exec .encb s = .next { s with st := encrypt (schedule s) s.st, err := 0, errInfo := 0 } :=
  exec_of_writeSt (needSchedule_eq_ok.2 ⟨hv, rfl⟩)

theorem exec_decb {s : State} (hv : s.kvalid = true) :
    exec .decb s = .next { s with st := decrypt (schedule s) s.st, err := 0, errInfo := 0 } :=
  exec_of_writeSt (needSchedule_eq_ok.2 ⟨hv, rfl⟩)

/-- R231 for a command that clears nothing else when it aborts. -/
theorem exec_of_noSchedule {i : Instr} {s : State} (h : commandEffect i s = .error ⟨.noKeySchedule, 0⟩)
    (hi : abortScope i = .errorOnly) : exec i s = .next { s with err := 0x81, errInfo := 0 } := by
  rw [exec_eq_endCommand, h, endCommand, hi]
  rfl

/-- The schedule of R138's example key, with zero words above it. -/
def exampleSchedule : Schedule :=
  ⟨writeSchedule (expand exampleKey) (Vector.replicate 60 (Vector.replicate 4 0)), 10⟩

/-- The plaintext of the source's cipher vector. -/
def examplePlain : Block :=
  #v[0x00, 0x11, 0x22, 0x33, 0x44, 0x55, 0x66, 0x77, 0x88, 0x99, 0xaa, 0xbb, 0xcc, 0xdd, 0xee, 0xff]

/-- Its ciphertext. -/
def exampleCipher : Block :=
  #v[0x69, 0xc4, 0xe0, 0xd8, 0x6a, 0x7b, 0x04, 0x30, 0xd8, 0xcd, 0xb7, 0x80, 0x70, 0xb4, 0xc5, 0x5a]

theorem encrypt_exampleSchedule : encrypt exampleSchedule examplePlain = exampleCipher := by
  decide +kernel

/-- The source's cipher vector, for every state whose schedule in use is the example key's. -/
theorem encrypt_examplePlain {s : State} (hnr : s.nr = 10)
    (hwords : ∀ w, w < 44 → scheduleWord s.ks w = wordAt (expand exampleKey) w) :
    encrypt (schedule s) examplePlain = exampleCipher := by
  have hrounds : (schedule s).rounds = 10 := by rw [schedule, hnr]; rfl
  have hlength : (expand exampleKey).length = 44 := length_expand exampleKey
  rw [← encrypt_exampleSchedule]
  refine encrypt_congr _ _ _ hrounds fun w hw => ?_
  have hw44 : w < 44 := by rwa [hrounds] at hw
  rw [exampleSchedule, scheduleWord_writeSchedule _ _ _ (by omega), if_pos (by omega)]
  exact hwords w hw44

/-- Settles O35: ENCB's effect with a schedule, its failure without one, and the source's vector. -/
theorem encbEncryptsSt : Obligations.EncbEncryptsSt := by
  refine ⟨rfl, fun s hv => exec_encb hv, fun s hv => exec_of_noSchedule (if_pos hv) rfl,
    fun s hv hnr hwords hst => ⟨_, exec_encb hv, ?_⟩⟩
  rw [hst]
  exact encrypt_examplePlain hnr hwords

/-- Settles O36: DECB's effect with a schedule, its failure without one, and the source's vector, undone. -/
theorem decbDecryptsSt : Obligations.DecbDecryptsSt := by
  refine ⟨rfl, fun s hv => exec_decb hv, fun s hv => exec_of_noSchedule (if_pos hv) rfl,
    fun s hv hnr hwords hst => ⟨_, exec_decb hv, ?_⟩⟩
  have hcipher : s.st = encrypt (schedule s) examplePlain := hst.trans (encrypt_examplePlain hnr hwords).symm
  rw [hcipher, decrypt_encrypt]
  rfl

/-! ### ENCB and DECB as primitive commands (R175) -/

/-- The commands that succeed on every State when the number of rounds is `nr`: a round primitive, and ADDRK of an index
the schedule has. -/
def IsPrimitive (nr : Nat) : Instr → Prop
  | .subb | .shrow | .mixc | .isubb | .ishrow | .imixc => True
  | .addrk r => r.toNat ≤ nr
  | _ => False

/-- What a primitive command makes of the State. -/
def primitiveFunction (k : Schedule) : Instr → Block → Block
  | .subb => subBytes
  | .shrow => shiftRows
  | .mixc => mixColumns
  | .addrk r => fun b => addRoundKey b (roundKey k r.toNat)
  | .isubb => invSubBytes
  | .ishrow => invShiftRows
  | .imixc => invMixColumns
  | _ => id

theorem exec_primitive {i : Instr} {s : State} (hv : s.kvalid = true) (hi : IsPrimitive s.nr.toNat i) :
    exec i s = .next { s with st := primitiveFunction (schedule s) i s.st, err := 0, errInfo := 0 } := by
  cases i with
  | subb | shrow | mixc | isubb | ishrow | imixc => exact exec_of_writeSt rfl
  | addrk r => exact exec_addrk_legal r s hv hi
  | _ => exact hi.elim

/-- What primitive commands, one after another, make of the State. -/
def applyPrimitives (k : Schedule) (is : List Instr) (b : Block) : Block :=
  is.foldl (fun b i => primitiveFunction k i b) b

theorem applyPrimitives_append (k : Schedule) (is js : List Instr) (b : Block) :
    applyPrimitives k (is ++ js) b = applyPrimitives k js (applyPrimitives k is b) :=
  List.foldl_append

/-- A program of one or more primitives succeeds, and writes ST and nothing else. -/
theorem execAll_primitives {is : List Instr} {s : State} (hne : is ≠ []) (hv : s.kvalid = true)
    (his : ∀ i ∈ is, IsPrimitive s.nr.toNat i) :
    execAll is s = .next { s with st := applyPrimitives (schedule s) is s.st, err := 0, errInfo := 0 } := by
  induction is generalizing s with
  | nil => exact absurd rfl hne
  | cons i is ih =>
    obtain ⟨hi, his⟩ := List.forall_mem_cons.1 his
    rw [execAll, exec_primitive hv hi]
    cases is with
    | nil => rfl
    | cons j js => exact ih (List.cons_ne_nil j js) hv his

section Programs

variable {k : Schedule} {n : Nat}

theorem applyPrimitives_encbRounds (hn : n < 256) (b : Block) :
    applyPrimitives k (encbRounds n) b = encryptRounds k n b := by
  induction n with
  | zero => rfl
  | succ n ih =>
    rw [encbRounds, applyPrimitives_append, ih (by omega), encryptRounds, encryptRound]
    simp [applyPrimitives, primitiveFunction, Nat.mod_eq_of_lt hn]

theorem applyPrimitives_decbRounds (hn : n < 256) (b : Block) :
    applyPrimitives k (decbRounds n) b = decryptRounds k n b := by
  induction n generalizing b with
  | zero => rfl
  | succ n ih =>
    rw [decbRounds, applyPrimitives_append, ih (by omega), decryptRounds, decryptRound]
    simp [applyPrimitives, primitiveFunction, Nat.mod_eq_of_lt hn]

theorem applyPrimitives_encbPrimitives (hk : k.rounds < 256) (b : Block) :
    applyPrimitives k (encbPrimitives k.rounds) b = encrypt k b := by
  rw [encbPrimitives, applyPrimitives_append, applyPrimitives_append, applyPrimitives_encbRounds (by omega), encrypt]
  simp [applyPrimitives, primitiveFunction, Nat.mod_eq_of_lt hk]

theorem applyPrimitives_decbPrimitives (hk : k.rounds < 256) (b : Block) :
    applyPrimitives k (decbPrimitives k.rounds) b = decrypt k b := by
  rw [decbPrimitives, applyPrimitives_append, applyPrimitives_append, applyPrimitives_decbRounds (by omega), decrypt]
  simp [applyPrimitives, primitiveFunction, Nat.mod_eq_of_lt hk]

variable {nr : Nat}

/-- The indices of the middle rounds are the schedule's. -/
theorem isPrimitive_of_mem_encbRounds (hn : n ≤ nr) : ∀ i ∈ encbRounds n, IsPrimitive nr i := by
  induction n with
  | zero => simp [encbRounds]
  | succ n ih =>
    have hindex : (n + 1) % 256 ≤ nr := (Nat.mod_le _ _).trans hn
    simpa [encbRounds, or_imp, forall_and, IsPrimitive, hindex] using ih (by omega)

theorem isPrimitive_of_mem_decbRounds (hn : n ≤ nr) : ∀ i ∈ decbRounds n, IsPrimitive nr i := by
  induction n with
  | zero => simp [decbRounds]
  | succ n ih =>
    have hindex : (n + 1) % 256 ≤ nr := (Nat.mod_le _ _).trans hn
    simpa [decbRounds, or_imp, forall_and, IsPrimitive, hindex] using ih (by omega)

theorem isPrimitive_of_mem_encbPrimitives (nr : Nat) : ∀ i ∈ encbPrimitives nr, IsPrimitive nr i := by
  simpa [encbPrimitives, or_imp, forall_and, IsPrimitive, Nat.mod_le] using
    isPrimitive_of_mem_encbRounds (Nat.sub_le nr 1)

theorem isPrimitive_of_mem_decbPrimitives (nr : Nat) : ∀ i ∈ decbPrimitives nr, IsPrimitive nr i := by
  simpa [decbPrimitives, or_imp, forall_and, IsPrimitive, Nat.mod_le] using
    isPrimitive_of_mem_decbRounds (Nat.sub_le nr 1)

end Programs

/-- Settles O38: both sequences are programs of primitives, and what they make of ST is Encrypt and Decrypt. -/
theorem blockCommandsEqualPrimitives : Obligations.BlockCommandsEqualPrimitives := by
  intro s hv
  have hk : (schedule s).rounds < 256 := s.nr.isLt
  refine ⟨⟨_, exec_encb hv, ?_⟩, _, exec_decb hv, ?_⟩
  · rw [execAll_primitives (by simp [encbPrimitives]) hv (isPrimitive_of_mem_encbPrimitives _),
      ← applyPrimitives_encbPrimitives hk]
    rfl
  · rw [execAll_primitives (by simp [decbPrimitives]) hv (isPrimitive_of_mem_decbPrimitives _),
      ← applyPrimitives_decbPrimitives hk]
    rfl

end Sys2Proof.Machine
end

section
/-! SUPPORT. CBC chaining (45_cbc.md): the blocks of the two procedures, that CBC decryption of what CBC encryption made
returns the plaintext, and how CBCENC and CBCDEC end. -/

namespace Sys2Proof.Machine

/-! ### The blocks of a ciphertext (R180) -/

section Encrypt

variable (k : Schedule) (iv : Block)

/-- Block `i` of the output is the chain value that pass `i` leaves. -/
theorem blockAt_cbcEncryptBlocks (buf : List Byte) {i n : Nat} (hi : i < n) :
    blockAt (cbcEncryptBlocks k iv buf n).2 i = (cbcEncryptBlocks k iv buf (i + 1)).1 := by
  induction n with
  | zero => omega
  | succ n ih =>
    have hlen := length_cbcEncryptBlocks k iv buf n
    obtain hlt | rfl := Nat.lt_succ_iff_lt_or_eq.1 hi
    · rw [cbcEncryptBlocks, blockAt_append_left _ _ _ (by omega), ih hlt]
    · rw [cbcEncryptBlocks, blockAt_append_right _ _ _ hlen]

/-- The chain value pass `i` starts from, read off any longer output. -/
theorem cbcEncryptBlocks_chain_of_le (buf : List Byte) {i n : Nat} (hi : i ≤ n) :
    (cbcEncryptBlocks k iv buf i).1 = if i = 0 then iv else blockAt (cbcEncryptBlocks k iv buf n).2 (i - 1) := by
  cases i with
  | zero => rfl
  | succ i => exact (blockAt_cbcEncryptBlocks k iv buf hi).symm

theorem blockAt_cbcEncrypt (plaintext : List Byte) {i : Nat} (hi : i ≤ plaintext.length / 16) :
    blockAt (cbcEncrypt k iv plaintext) i =
      encrypt k (xorBytes (blockAt (padInput plaintext) i)
        (if i = 0 then iv else blockAt (cbcEncrypt k iv plaintext) (i - 1))) := by
  have hlt : i < (padInput plaintext).length / 16 := by rw [length_padInput]; omega
  simp only [cbcEncrypt]
  rw [blockAt_cbcEncryptBlocks k iv _ hlt, ← cbcEncryptBlocks_chain_of_le k iv _ hlt.le, cbcEncryptBlocks]

end Encrypt

/-- Settles O42: the length, and block `i` as the chain value pass `i` leaves. -/
theorem cbcEncryptChainsBlocks : Obligations.CbcEncryptChainsBlocks :=
  fun k iv plaintext => ⟨length_cbcEncrypt k iv plaintext, fun _ hi => blockAt_cbcEncrypt k iv plaintext hi⟩

/-! ### The blocks of a plaintext (R183) -/

section Decrypt

variable (k : Schedule) (iv : Block)

theorem blockAt_cbcDecryptBlocks (ciphertext : List Byte) {i n : Nat} (hi : i < n) :
    blockAt (cbcDecryptBlocks k iv ciphertext n).2 i =
      xorBytes (decrypt k (blockAt ciphertext i)) (if i = 0 then iv else blockAt ciphertext (i - 1)) := by
  induction n with
  | zero => omega
  | succ n ih =>
    have hlen := length_cbcDecryptBlocks k iv ciphertext n
    obtain hlt | rfl := Nat.lt_succ_iff_lt_or_eq.1 hi
    · rw [cbcDecryptBlocks, blockAt_append_left _ _ _ (by omega), ih hlt]
    · rw [cbcDecryptBlocks, blockAt_append_right _ _ _ hlen, cbcDecryptBlocks_chain]

theorem cbcDecrypt_of_ragged {ciphertext : List Byte} (h : ciphertext.length % 16 ≠ 0) :
    cbcDecrypt k iv ciphertext = .error ⟨.invalidCipherText, BitVec.ofNat 32 ciphertext.length⟩ :=
  if_pos h

theorem cbcDecrypt_of_whole_blocks {ciphertext : List Byte} (h : ciphertext.length % 16 = 0) :
    cbcDecrypt k iv ciphertext = stripOutput (cbcDecryptBlocks k iv ciphertext (ciphertext.length / 16)).2 :=
  if_neg (not_not.2 h)

end Decrypt

/-- Settles O43: the bytes handed to the stripper are those of R183's block loop. -/
theorem cbcDecryptChainsBlocks : Obligations.CbcDecryptChainsBlocks := by
  refine fun k iv ciphertext => ⟨cbcDecrypt_of_ragged k iv, fun hwhole => ?_⟩
  refine ⟨_, ?_, fun i hi => blockAt_cbcDecryptBlocks k iv ciphertext hi, cbcDecrypt_of_whole_blocks k iv hwhole⟩
  rw [length_cbcDecryptBlocks]
  omega

/-! ### CBC decryption undoes CBC encryption (R188) -/

/-- The stripper undoes the padder (46_padding.md R205): the last byte, and each of the added bytes, is their number. -/
theorem stripOutput_padInput (x : List Byte) : stripOutput (padInput x) = .ok x := by
  have hlen := length_padInput x
  have hpad : (BitVec.ofNat 8 (padLength x.length)).toNat = padLength x.length := by
    simp only [padLength, BitVec.toNat_ofNat]
    omega
  have hstart : (padInput x).length - padLength x.length = x.length := by simp [padInput]
  have hadded : ∀ j, x.length ≤ j → j < (padInput x).length →
      (padInput x).getD j 0 = BitVec.ofNat 8 (padLength x.length) := by
    intro j h1 h2
    rw [List.getD_eq_getElem _ _ h2]
    simp only [padInput]
    rw [List.getElem_append_right h1, List.getElem_replicate]
  have hpos : 1 ≤ padLength x.length ∧ padLength x.length ≤ 16 := by simp only [padLength]; omega
  rw [stripOutput_blocks _ (by omega) (by omega) _ (hadded _ (by omega) (by omega)), hpad, hstart,
    if_neg (by omega), if_pos hadded, padInput, List.take_left]

/-- Each block comes back: Decrypt undoes Encrypt, and the same chain value is XORed twice. -/
theorem cbcDecryptBlocks_cbcEncrypt (k : Schedule) (iv : Block) (plaintext : List Byte) :
    (cbcDecryptBlocks k iv (cbcEncrypt k iv plaintext) (plaintext.length / 16 + 1)).2 = padInput plaintext := by
  refine bytes_ext_blocks _ _ _ (length_cbcDecryptBlocks k iv _ _) (length_padInput plaintext) fun i hi => ?_
  rw [blockAt_cbcDecryptBlocks k iv _ hi, blockAt_cbcEncrypt k iv _ (Nat.le_of_lt_succ hi), decrypt_encrypt,
    xorBytes_cancel_right]

theorem cbcDecrypt_cbcEncrypt (k : Schedule) (iv : Block) (plaintext : List Byte) :
    cbcDecrypt k iv (cbcEncrypt k iv plaintext) = .ok plaintext := by
  have hlen := length_cbcEncrypt k iv plaintext
  rw [cbcDecrypt_of_whole_blocks k iv (by omega), hlen, Nat.mul_div_cancel_left _ (by omega),
    cbcDecryptBlocks_cbcEncrypt, stripOutput_padInput]

/-! ### How CBCENC and CBCDEC end (R182, R184, 60_exceptions.md R240, R241) -/

/-- A CBC command that succeeds: its output, every register, and OBUF above the output (log 8). -/
theorem exec_of_chained {i : Instr} {s : State} {out : List Byte} {last : Block} {blocks : Nat}
    (h : commandEffect i s = .ok (.chained out last blocks)) :
    ∃ t, exec i s = .next t ∧ outputBytes t = out ∧
      t = { s with
        obuf := t.obuf, olen := BitVec.ofNat 32 out.length, chain := last, blk := BitVec.ofNat 32 blocks
        phase := .done, st := zeroBlock, err := 0, errInfo := 0 } ∧
      ∀ j, out.length ≤ j → t.obuf.read j = s.obuf.read j := by
  have hlt : out.length < 2 ^ 32 := by
    obtain ⟨-, hfit, -⟩ := allowed_of_commandEffect h
    exact hfit.trans_lt s.cfg.legal.2.2
  refine ⟨(Effect.chained out last blocks).apply s, ?_, outputBytes_setOutput out _ hlt, rfl, fun j hj => ?_⟩
  · rw [exec_eq_endCommand, h, endCommand]
  · exact (setOutput_obuf_read out _ j).trans (if_neg (by omega))

/-- A CBC command that fails: the abort of R240. -/
theorem exec_of_chainingError {i : Instr} {s : State} {f : Failure} (h : commandEffect i s = .error f)
    (hi : abortScope i = .chaining) :
    exec i s = .next { s with
      olen := 0, phase := .init, blk := 0, st := zeroBlock, chain := zeroBlock
      err := f.kind.code, errInfo := f.info } := by
  rw [exec_eq_endCommand, h, endCommand, hi]
  rfl

section Checks

variable {s : State}

theorem commandEffect_cbcenc_of_le (hv : s.kvalid = true) (hl : s.ilen.toNat ≤ s.cfg.bufMax) :
    commandEffect .cbcenc s = .ok (.chained (cbcEncrypt (schedule s) s.iv (inputBytes s))
      (blockAt (cbcEncrypt (schedule s) s.iv (inputBytes s)) (s.ilen.toNat / 16)) (s.ilen.toNat / 16 + 1)) :=
  needSchedule_eq_ok.2 ⟨hv, needLength_eq_ok.2 ⟨hl, rfl⟩⟩

theorem commandEffect_cbcenc_noSchedule (hv : s.kvalid = false) :
    commandEffect .cbcenc s = .error ⟨.noKeySchedule, 0⟩ :=
  needSchedule_eq_error.2 (.inl ⟨hv, rfl⟩)

theorem commandEffect_cbcenc_overflow (hv : s.kvalid = true) (hl : s.cfg.bufMax < s.ilen.toNat) :
    commandEffect .cbcenc s = .error ⟨.lengthOverflow, s.ilen⟩ :=
  needSchedule_eq_error.2 (.inr ⟨hv, needLength_eq_error.2 (.inl ⟨hl, rfl⟩)⟩)

theorem commandEffect_cbcdec_of_ok {out : List Byte} (hv : s.kvalid = true) (hl : s.ilen.toNat ≤ bufSize s)
    (hd : cbcDecrypt (schedule s) s.iv (inputBytes s) = .ok out) :
    commandEffect .cbcdec s =
      .ok (.chained out (blockAt (inputBytes s) (s.ilen.toNat / 16 - 1)) (s.ilen.toNat / 16)) :=
  needSchedule_eq_ok.2 ⟨hv, needLength_eq_ok.2 ⟨hl, by rw [hd]; rfl⟩⟩

theorem commandEffect_cbcdec_of_error {f : Failure} (hv : s.kvalid = true) (hl : s.ilen.toNat ≤ bufSize s)
    (hd : cbcDecrypt (schedule s) s.iv (inputBytes s) = .error f) : commandEffect .cbcdec s = .error f :=
  needSchedule_eq_error.2 (.inr ⟨hv, needLength_eq_error.2 (.inr ⟨hl, by rw [hd]; rfl⟩)⟩)

theorem commandEffect_cbcdec_noSchedule (hv : s.kvalid = false) :
    commandEffect .cbcdec s = .error ⟨.noKeySchedule, 0⟩ :=
  needSchedule_eq_error.2 (.inl ⟨hv, rfl⟩)

theorem commandEffect_cbcdec_overflow (hv : s.kvalid = true) (hl : bufSize s < s.ilen.toNat) :
    commandEffect .cbcdec s = .error ⟨.lengthOverflow, s.ilen⟩ :=
  needSchedule_eq_error.2 (.inr ⟨hv, needLength_eq_error.2 (.inl ⟨hl, rfl⟩)⟩)

/-- R189: a length within the buffer that is not a multiple of 16. -/
theorem commandEffect_cbcdec_ragged (hv : s.kvalid = true) (hl : s.ilen.toNat ≤ bufSize s)
    (hr : s.ilen.toNat % 16 ≠ 0) : commandEffect .cbcdec s = .error ⟨.invalidCipherText, s.ilen⟩ := by
  refine commandEffect_cbcdec_of_error hv hl ?_
  rw [cbcDecrypt_of_ragged _ _ (by rwa [length_inputBytes]), length_inputBytes, BitVec.ofNat_toNat,
    BitVec.setWidth_eq]

end Checks

/-! ### The source's CBC vector (R182) -/

/-- A schedule with the round keys of R138's example key encrypts as that key's does. -/
theorem encrypt_eq_exampleSchedule {k : Schedule} (hrounds : k.rounds = 10)
    (hwords : ∀ w, w < 44 → scheduleWord k.words w = wordAt (expand exampleKey) w) (b : Block) :
    encrypt k b = encrypt exampleSchedule b := by
  have hlength : (expand exampleKey).length = 44 := length_expand exampleKey
  refine encrypt_congr _ _ b hrounds fun w hw => ?_
  have hw44 : w < 44 := by rwa [hrounds] at hw
  rw [hwords w hw44, exampleSchedule, scheduleWord_writeSchedule _ _ _ (by omega), if_pos (by omega)]

/-- The IV of the vector. -/
def exampleIv : Block :=
  #v[0x66, 0x47, 0x78, 0x53, 0x57, 0x64, 0x35, 0x39, 0x41, 0x59, 0x64, 0x69, 0x51, 0x58, 0x5a, 0x53]

/-- The first ciphertext block of the vector, for the example key. -/
theorem encrypt_exampleSchedule_xor_exampleIv :
    encrypt exampleSchedule (xorBytes (blockAt (padInput examplePlain.toList) 0) exampleIv) =
      #v[0x3b, 0x43, 0x88, 0x86, 0x4f, 0x4e, 0xbd, 0x72, 0x89, 0x96, 0xcf, 0x94, 0xba, 0x75, 0x82, 0xb2] := by
  decide +kernel

/-- Settles O44: CBCENC's effect, seen register by register, its two aborts, and the source's vector. -/
theorem cbcencOutputsCiphertext : Obligations.CbcencOutputsCiphertext := by
  refine ⟨rfl, fun s hv hl => ?_,
    fun s hv => exec_of_chainingError (commandEffect_cbcenc_noSchedule hv) rfl,
    fun s hv hl => exec_of_chainingError (commandEffect_cbcenc_overflow hv hl) rfl,
    fun k hrounds hwords => ?_⟩
  · obtain ⟨t, hexec, hout, ht, hread⟩ := exec_of_chained (commandEffect_cbcenc_of_le hv hl)
    rw [length_cbcEncrypt, length_inputBytes] at ht hread
    rw [← hout] at ht
    exact ⟨t, hexec, hout, ht, hread⟩
  · have hfirst := blockAt_cbcEncrypt k exampleIv examplePlain.toList (Nat.zero_le _)
    rw [if_pos rfl, encrypt_eq_exampleSchedule hrounds hwords, encrypt_exampleSchedule_xor_exampleIv] at hfirst
    exact hfirst

/-- Settles O45: CBCDEC ends as CBC decryption of its input does, and aborts on LengthOverflow. -/
theorem cbcdecOutputsPlaintextOrAborts : Obligations.CbcdecOutputsPlaintextOrAborts :=
  ⟨rfl, fun _ _ hv hl hd => exec_of_chained (commandEffect_cbcdec_of_ok hv hl hd),
    fun _ _ hv hl hd => exec_of_chainingError (commandEffect_cbcdec_of_error hv hl hd) rfl,
    fun _ hv hl => exec_of_chainingError (commandEffect_cbcdec_overflow hv hl) rfl⟩

/-- Settles O47: CBCENC's output is the ciphertext of its input, and CBC decryption undoes CBC encryption. -/
theorem cbcRoundTrip : Obligations.CbcRoundTrip := by
  intro s t u hv hl hexec huv huks hunr huiv hucfg huilen hubytes
  obtain ⟨t', hexec', hout, ht, -⟩ := exec_of_chained (commandEffect_cbcenc_of_le hv hl)
  obtain rfl : t' = t := by
    rw [hexec'] at hexec
    injection hexec
  have hinput : inputBytes u = cbcEncrypt (schedule s) s.iv (inputBytes s) := hubytes.trans hout
  have hschedule : schedule u = schedule s := by rw [schedule, schedule, huks, hunr]
  have hplain : cbcDecrypt (schedule u) u.iv (inputBytes u) = .ok (inputBytes s) := by
    rw [hschedule, huiv, hinput, cbcDecrypt_cbcEncrypt]
  have hfits : u.ilen.toNat ≤ bufSize u := by
    rw [← length_inputBytes, hinput, length_cbcEncrypt, length_inputBytes, bufSize, hucfg]
    omega
  obtain ⟨v, hexecv, houtv, hv', -⟩ := exec_of_chained (commandEffect_cbcdec_of_ok huv hfits hplain)
  refine ⟨v, hexecv, by rw [hv'], ?_, houtv⟩
  rw [hv', length_inputBytes, BitVec.ofNat_toNat, BitVec.setWidth_eq]

/-- Settles O46: the hardware's two checks come first, then R183's own. -/
theorem cbcdecRejectsRaggedLength : Obligations.CbcdecRejectsRaggedLength := by
  intro s hr
  by_cases hv : s.kvalid = false
  · simp only [if_pos hv]
    exact exec_of_chainingError (commandEffect_cbcdec_noSchedule hv) rfl
  simp only [if_neg hv]
  rw [Bool.not_eq_false] at hv
  by_cases hl : s.cfg.bufMax + 16 < s.ilen.toNat
  · simp only [if_pos hl]
    exact exec_of_chainingError (commandEffect_cbcdec_overflow hv hl) rfl
  · simp only [if_neg hl]
    exact exec_of_chainingError (commandEffect_cbcdec_ragged hv (Nat.le_of_not_lt hl) hr) rfl

end Sys2Proof.Machine
end

section
/-! SUPPORT. Padding (46_padding.md): the bytes PAD adds, the stripper on the input buffer, how PAD and STRIP end, and
that STRIP undoes PAD. -/

namespace Sys2Proof.Machine

/-! ### The padder byte by byte (R201) -/

theorem padInput_getD_of_lt {buf : List Byte} {i : Nat} (h : i < buf.length) :
    (padInput buf).getD i 0 = buf.getD i 0 :=
  List.getD_append _ _ _ _ h

theorem padInput_getD_of_le {buf : List Byte} {i : Nat} (h : buf.length ≤ i) (hi : i < (padInput buf).length) :
    (padInput buf).getD i 0 = BitVec.ofNat 8 (16 - buf.length % 16) := by
  have hadded : i - buf.length < padLength buf.length := by
    simp only [padInput, List.length_append, List.length_replicate] at hi
    omega
  rw [padInput, List.getD_append_right _ _ _ _ h, List.getD_replicate _ hadded, padLength]

/-! ### The stripper on the input buffer (R203) -/

/-- On one or more whole blocks the last input byte, as a number `p`, decides (R206). -/
theorem stripOutput_inputBytes {s : State} {p : Nat} (hblocks : s.ilen.toNat % 16 = 0) (hne : s.ilen.toNat ≠ 0)
    (hp : p = (ibufByte s (s.ilen.toNat - 1)).toNat) :
    stripOutput (inputBytes s) =
      if p = 0 ∨ 16 < p then .error ⟨.invalidPaddingSize, BitVec.ofNat 32 p⟩
      else if ∀ j, s.ilen.toNat - p ≤ j → j < s.ilen.toNat → (ibufByte s j).toNat = p then
        .ok ((inputBytes s).take (s.ilen.toNat - p))
      else .error ⟨.invalidPaddingBytes, BitVec.ofNat 32 p⟩ := by
  have hlen := length_inputBytes s
  have hlast : (inputBytes s).getD ((inputBytes s).length - 1) 0 = ibufByte s (s.ilen.toNat - 1) := by
    rw [hlen, inputBytes_getD s _ (by omega)]
  have hbytes : (∀ j, s.ilen.toNat - p ≤ j → j < s.ilen.toNat →
        (inputBytes s).getD j 0 = ibufByte s (s.ilen.toNat - 1)) ↔
      ∀ j, s.ilen.toNat - p ≤ j → j < s.ilen.toNat → (ibufByte s j).toNat = p :=
    forall₃_congr fun j _ hj => by rw [inputBytes_getD s j hj, hp, BitVec.toNat_inj]
  rw [stripOutput_blocks _ (by omega) (by omega) _ hlast, hlen, ← hp]
  simp only [hbytes]
  rw [hp, BitVec.ofNat_toNat]

/-! ### How PAD and STRIP end (R202, R204, 60_exceptions.md R240, R241) -/

theorem outputBytes_getD (s : State) {i : Nat} (h : i < s.olen.toNat) : (outputBytes s).getD i 0 = obufByte s i := by
  simp [outputBytes, List.getD_eq_getElem?_getD, h]

/-- PAD or STRIP succeeding: its output, every register, and OBUF above the output (log 8). -/
theorem exec_of_output {i : Instr} {s : State} {out : List Byte} (h : commandEffect i s = .ok (.output out)) :
    ∃ t, exec i s = .next t ∧ outputBytes t = out ∧ t.olen.toNat = out.length ∧
      t = { s with obuf := t.obuf, olen := BitVec.ofNat 32 out.length, err := 0, errInfo := 0 } ∧
      ∀ j, out.length ≤ j → t.obuf.read j = s.obuf.read j := by
  have hlt : out.length < 2 ^ 32 := by
    obtain ⟨-, hfit⟩ := allowed_of_commandEffect h
    exact hfit.trans_lt s.cfg.legal.2.2
  refine ⟨(Effect.output out).apply s, ?_, outputBytes_setOutput out s hlt,
    (BitVec.toNat_ofNat _ _).trans (Nat.mod_eq_of_lt hlt), rfl, fun j hj => ?_⟩
  · rw [exec_eq_endCommand, h, endCommand]
  · exact (setOutput_obuf_read out s j).trans (if_neg (by omega))

/-- PAD or STRIP failing: the abort of R240. -/
theorem exec_of_outputError {i : Instr} {s : State} {f : Failure} (h : commandEffect i s = .error f)
    (hi : abortScope i = .output) :
    exec i s = .next { s with olen := 0, err := f.kind.code, errInfo := f.info } := by
  rw [exec_eq_endCommand, h, endCommand, hi]
  rfl

section Checks

variable {s : State}

theorem commandEffect_pad_of_le (hl : s.ilen.toNat ≤ s.cfg.bufMax) :
    commandEffect .pad s = .ok (.output (padInput (inputBytes s))) :=
  needLength_eq_ok.2 ⟨hl, rfl⟩

theorem commandEffect_pad_overflow (hl : s.cfg.bufMax < s.ilen.toNat) :
    commandEffect .pad s = .error ⟨.lengthOverflow, s.ilen⟩ :=
  needLength_eq_error.2 (.inl ⟨hl, rfl⟩)

theorem commandEffect_strip_of_ok {out : List Byte} (hl : s.ilen.toNat ≤ bufSize s)
    (ho : stripOutput (inputBytes s) = .ok out) : commandEffect .strip s = .ok (.output out) :=
  needLength_eq_ok.2 ⟨hl, by rw [ho]; rfl⟩

theorem commandEffect_strip_of_error {f : Failure} (hl : s.ilen.toNat ≤ bufSize s)
    (hf : stripOutput (inputBytes s) = .error f) : commandEffect .strip s = .error f :=
  needLength_eq_error.2 (.inr ⟨hl, by rw [hf]; rfl⟩)

theorem commandEffect_strip_overflow (hl : bufSize s < s.ilen.toNat) :
    commandEffect .strip s = .error ⟨.lengthOverflow, s.ilen⟩ :=
  needLength_eq_error.2 (.inl ⟨hl, rfl⟩)

/-- R203's first check: a length that is not a multiple of 16. -/
theorem commandEffect_strip_ragged (hl : s.ilen.toNat ≤ bufSize s) (hr : s.ilen.toNat % 16 ≠ 0) :
    commandEffect .strip s = .error ⟨.invalidSize, s.ilen⟩ := by
  refine commandEffect_strip_of_error hl ?_
  rw [stripOutput, length_inputBytes, if_pos hr, BitVec.ofNat_toNat, BitVec.setWidth_eq]

/-- R203's second check: no input byte at all. -/
theorem commandEffect_strip_empty (h0 : s.ilen = 0) : commandEffect .strip s = .error ⟨.emptyBuffer, 0⟩ := by
  have hnil : inputBytes s = [] := by rw [inputBytes, h0]; rfl
  refine commandEffect_strip_of_error (by rw [h0]; exact Nat.zero_le _) ?_
  rw [hnil, stripOutput_nil]

end Checks

/-- Settles O39: PAD's output is the padded input, read byte by byte, and its abort. -/
theorem padAppendsPadding : Obligations.PadAppendsPadding := by
  refine ⟨rfl, fun s hl => ?_, fun s hl => exec_of_outputError (commandEffect_pad_overflow hl) rfl, rfl⟩
  obtain ⟨t, hexec, hout, holen, ht, hread⟩ := exec_of_output (commandEffect_pad_of_le hl)
  have hlen := length_padInput (inputBytes s)
  rw [length_inputBytes] at hlen
  have hbyte : ∀ i, i < t.olen.toNat → obufByte t i = (padInput (inputBytes s)).getD i 0 := fun i hi => by
    rw [← outputBytes_getD t hi, hout]
  refine ⟨t, hexec, by rwa [hlen] at ht, holen.trans hlen, fun i hi => ?_, fun i hle hi => ?_,
    fun i hi => hread i (holen ▸ hi)⟩
  · rw [hbyte i (by omega), padInput_getD_of_lt (by rwa [length_inputBytes]), inputBytes_getD s i hi]
  · rw [hbyte i hi, padInput_getD_of_le (by rwa [length_inputBytes]) (holen ▸ hi), length_inputBytes]

/-- Settles O40: the length checks, then the stripper's outcome by the last input byte. -/
theorem stripChecksThenRemovesPadding : Obligations.StripChecksThenRemovesPadding := by
  refine ⟨rfl, fun s hl => exec_of_outputError (commandEffect_strip_overflow hl) rfl,
    fun s hl hr => exec_of_outputError (commandEffect_strip_ragged hl hr) rfl,
    fun s h0 => exec_of_outputError (commandEffect_strip_empty h0) rfl, fun s p hl hblocks hne hp => ?_, rfl⟩
  have hstrip := stripOutput_inputBytes hblocks (fun h0 => hne (BitVec.eq_of_toNat_eq h0)) hp
  refine ⟨fun hsize => ?_, fun h1 h16 ⟨j, hle, hlt, hdiff⟩ => ?_, fun h1 h16 hequal => ?_⟩
  · rw [if_pos hsize] at hstrip
    exact exec_of_outputError (commandEffect_strip_of_error hl hstrip) rfl
  · rw [if_neg (by omega), if_neg fun hequal => hdiff (hequal j hle hlt)] at hstrip
    exact exec_of_outputError (commandEffect_strip_of_error hl hstrip) rfl
  · rw [if_neg (by omega), if_pos hequal] at hstrip
    obtain ⟨t, hexec, hout, holen, ht, hread⟩ := exec_of_output (commandEffect_strip_of_ok hl hstrip)
    have hlen : ((inputBytes s).take (s.ilen.toNat - p)).length = s.ilen.toNat - p := by
      rw [List.length_take, length_inputBytes, Nat.min_eq_left (Nat.sub_le _ _)]
    rw [hlen] at holen ht hread
    refine ⟨t, hexec, ht, fun i hi => ?_, hread⟩
    rw [← outputBytes_getD t (by omega), hout, ← inputBytes_getD s i (by omega)]
    simp [List.getD_eq_getElem?_getD, hi]

/-- Settles O41: STRIP's input is the padded bytes, and the stripper undoes the padder. -/
theorem stripUndoesPad : Obligations.StripUndoesPad := by
  refine ⟨stripOutput_padInput, fun s t u hl hexec hcfg hilen hbytes => ?_⟩
  obtain ⟨t', hexec', hout, holen, -, -⟩ := exec_of_output (commandEffect_pad_of_le hl)
  obtain rfl : t' = t := by
    rw [hexec'] at hexec
    injection hexec
  have hstrip : stripOutput (inputBytes u) = .ok (inputBytes s) := by
    rw [hbytes, hout, stripOutput_padInput]
  have hfits : u.ilen.toNat ≤ bufSize u := by
    rw [hilen, holen, length_padInput, length_inputBytes, bufSize, hcfg]
    omega
  obtain ⟨v, hexecv, houtv, -, hv, -⟩ := exec_of_output (commandEffect_strip_of_ok hfits hstrip)
  refine ⟨v, hexecv, by rw [hv], ?_, houtv⟩
  rw [hv, length_inputBytes, BitVec.ofNat_toNat, BitVec.setWidth_eq]

end Sys2Proof.Machine
end

section
/-! SUPPORT. IV generation (47_iv.md): the bytes of a draw, and the command IVGEN. -/

namespace Sys2Proof.Machine

theorem byteAt_drawBlock (n : Nat) {i : Nat} (hi : i < 16) : byteAt (drawBlock n) i = Config.entropyByte n i := by
  rw [byteAt_eq_getElem _ _ hi, drawBlock, Vector.getElem_ofFn]

/-- IVGEN succeeds in every state, takes the next draw and changes nothing else. -/
theorem exec_ivgen (s : State) :
    exec .ivgen s = .next { s with iv := drawBlock s.draws, draws := s.draws + 1, err := 0, errInfo := 0 } :=
  exec_eq_endCommand .ivgen s

/-- Settles O50: IV becomes the block of the next draw, whose bytes are the draw's. -/
theorem ivgenLoadsDraw : Obligations.IvgenLoadsDraw :=
  ⟨rfl, fun s => ⟨_, exec_ivgen s, rfl, fun _ hi => byteAt_drawBlock s.draws hi⟩⟩

end Sys2Proof.Machine
end

section
/-! SUPPORT. Errors (60_exceptions.md): the cause of every failure a command can end with, what an abort leaves as it was,
and the illegal words. -/

namespace Sys2Proof.Machine

/-! ### The buffer a command strips (R224 to R228) -/

/-- The byte sequence STRIP and CBCDEC hand to the stripper: the input, or the decrypted blocks. -/
def strippedBuffer (i : Instr) (s : State) : List Byte :=
  if i = .cbcdec then (cbcDecryptBlocks (schedule s) s.iv (inputBytes s) (s.ilen.toNat / 16)).2 else inputBytes s

theorem length_strippedBuffer (i : Instr) {s : State} (hblocks : s.ilen.toNat % 16 = 0) :
    (strippedBuffer i s).length = s.ilen.toNat := by
  rw [strippedBuffer]
  split
  · rw [length_cbcDecryptBlocks]
    omega
  · exact length_inputBytes s

theorem strippedBuffer_getD (i : Instr) {s : State} {j : Nat} (hj : j < s.ilen.toNat) :
    (strippedBuffer i s).getD j 0 = strippedByte i s j := by
  rw [strippedBuffer, strippedByte]
  split
  · rfl
  · exact inputBytes_getD s j hj

/-! ### The causes of the failures (R221) -/

/-- The commands that need round keys (R231). -/
def NeedsSchedule (i : Instr) : Prop :=
  i = .encb ∨ i = .decb ∨ i = .cbcenc ∨ i = .cbcdec ∨ ∃ r, i = .addrk r

/-- The commands that pad their input, so that it may be `BUF_MAX` bytes long at most (R232). -/
def PadsInput (i : Instr) : Prop :=
  i = .pad ∨ i = .cbcenc

/-- The commands that end with the stripper (46_padding.md R203). -/
def StripsBuffer (i : Instr) : Prop :=
  i = .strip ∨ i = .cbcdec

/-- A failure with the command that reports it and its cause in the state before: the rows of R221, LengthOverflow once
for each of its two limits. No row is for IllegalCommand, which no command reports. -/
inductive FailureCause : Instr → State → Failure → Prop
  /-- R222. -/
  | keyLength {s : State} (h : ¬ KeyLenLegal s) : FailureCause .kexp s ⟨.invalidKeySize, s.keyLen⟩
  /-- R223. -/
  | raggedCiphertext {s : State} (h : s.ilen.toNat % 16 ≠ 0) : FailureCause .cbcdec s ⟨.invalidCipherText, s.ilen⟩
  /-- R224. -/
  | raggedInput {s : State} (h : s.ilen.toNat % 16 ≠ 0) : FailureCause .strip s ⟨.invalidSize, s.ilen⟩
  /-- R225. -/
  | emptyInput {i : Instr} {s : State} (hi : StripsBuffer i) (h : s.ilen = 0) : FailureCause i s ⟨.emptyBuffer, 0⟩
  /-- R226. -/
  | paddingSize {i : Instr} {s : State} {l : Byte} (hi : StripsBuffer i) (hne : s.ilen ≠ 0)
      (hblocks : s.ilen.toNat % 16 = 0) (hl : strippedByte i s (s.ilen.toNat - 1) = l)
      (h : l.toNat = 0 ∨ 16 < l.toNat) : FailureCause i s ⟨.invalidPaddingSize, l.zeroExtend 32⟩
  /-- R228. -/
  | paddingBytes {i : Instr} {s : State} {l : Byte} {j : Nat} (hi : StripsBuffer i) (hne : s.ilen ≠ 0)
      (hblocks : s.ilen.toNat % 16 = 0) (hl : strippedByte i s (s.ilen.toNat - 1) = l)
      (h1 : 1 ≤ l.toNat) (h16 : l.toNat ≤ 16) (hle : s.ilen.toNat - l.toNat ≤ j) (hlt : j < s.ilen.toNat)
      (hdiff : strippedByte i s j ≠ l) : FailureCause i s ⟨.invalidPaddingBytes, l.zeroExtend 32⟩
  /-- R231. -/
  | noSchedule {i : Instr} {s : State} (hi : NeedsSchedule i) (h : s.kvalid = false) :
      FailureCause i s ⟨.noKeySchedule, 0⟩
  /-- R233. -/
  | roundIndex {r : Byte} {s : State} (h : s.nr.toNat < r.toNat) :
      FailureCause (.addrk r) s ⟨.badRoundIndex, r.zeroExtend 32⟩
  /-- R232. -/
  | longPlaintext {i : Instr} {s : State} (hi : PadsInput i) (h : s.cfg.bufMax < s.ilen.toNat) :
      FailureCause i s ⟨.lengthOverflow, s.ilen⟩
  /-- R232. -/
  | longInput {i : Instr} {s : State} (hi : StripsBuffer i) (h : bufSize s < s.ilen.toNat) :
      FailureCause i s ⟨.lengthOverflow, s.ilen⟩

/-- The stripper's failures on whole blocks: its buffer has as many bytes as the input. -/
theorem FailureCause.of_stripOutput {i : Instr} {s : State} {f : Failure} (hi : StripsBuffer i)
    (hblocks : s.ilen.toNat % 16 = 0) (h : stripOutput (strippedBuffer i s) = .error f) : FailureCause i s f := by
  have hlen := length_strippedBuffer i hblocks
  have hne : (strippedBuffer i s).length ≠ 0 → s.ilen ≠ 0 := fun h hz => h (by rw [hlen, hz]; rfl)
  have hpos : s.ilen.toNat ≠ 0 → s.ilen.toNat - 1 < s.ilen.toNat := by omega
  rcases stripOutput_error _ _ h with ⟨-, hragged⟩ | ⟨rfl, hempty⟩ | ⟨l, rfl, -, hfull, hl, hsize⟩ |
    ⟨l, rfl, -, hfull, hl, h1, h16, j, hle, hlt, hdiff⟩
  · exact absurd (hlen ▸ hblocks) hragged
  · exact .emptyInput hi (BitVec.eq_of_toNat_eq (hlen ▸ hempty))
  · rw [hlen, strippedBuffer_getD i (hpos (hlen ▸ hfull))] at hl
    exact .paddingSize hi (hne hfull) hblocks hl hsize
  · rw [hlen, strippedBuffer_getD i (hpos (hlen ▸ hfull))] at hl
    rw [hlen] at hle hlt
    rw [strippedBuffer_getD i hlt] at hdiff
    exact .paddingBytes hi (hne hfull) hblocks hl (Nat.one_le_iff_ne_zero.2 h1) h16 hle hlt hdiff

theorem FailureCause.of_strip {s : State} {f : Failure} (h : stripOutput (inputBytes s) = .error f) :
    FailureCause .strip s f := by
  by_cases hblocks : s.ilen.toNat % 16 = 0
  · exact .of_stripOutput (.inl rfl) hblocks h
  · rw [stripOutput, length_inputBytes, if_pos hblocks, BitVec.ofNat_toNat, BitVec.setWidth_eq] at h
    cases h
    exact .raggedInput hblocks

theorem FailureCause.of_cbcDecrypt {s : State} {f : Failure}
    (h : cbcDecrypt (schedule s) s.iv (inputBytes s) = .error f) : FailureCause .cbcdec s f := by
  have hlen := length_inputBytes s
  by_cases hblocks : s.ilen.toNat % 16 = 0
  · rw [cbcDecrypt_of_whole_blocks _ _ (hlen ▸ hblocks), hlen] at h
    exact .of_stripOutput (.inr rfl) hblocks h
  · rw [cbcDecrypt_of_ragged _ _ (hlen ▸ hblocks), hlen, BitVec.ofNat_toNat, BitVec.setWidth_eq] at h
    cases h
    exact .raggedCiphertext hblocks

theorem error_of_map_eq_error {α β : Type} {r : Except Failure α} {g : α → β} {f : Failure}
    (h : r.map g = .error f) : r = .error f := by
  cases r with
  | error e => cases h; rfl
  | ok a => cases h

/-- A failure behind the schedule check is the check's own or a later one. -/
theorem FailureCause.of_needSchedule {i : Instr} {s : State} {r : Except Failure Effect} {f : Failure}
    (h : needSchedule s r = .error f) (hi : NeedsSchedule i) (hr : r = .error f → FailureCause i s f) :
    FailureCause i s f := by
  rcases needSchedule_eq_error.1 h with ⟨hv, rfl⟩ | ⟨-, h⟩
  · exact .noSchedule hi hv
  · exact hr h

/-- A failure behind a length check is the check's own or a later one. -/
theorem FailureCause.of_needLength {i : Instr} {s : State} {limit : Nat} {r : Except Failure Effect} {f : Failure}
    (h : needLength limit s r = .error f)
    (hi : limit < s.ilen.toNat → FailureCause i s ⟨.lengthOverflow, s.ilen⟩)
    (hr : r = .error f → FailureCause i s f) : FailureCause i s f := by
  rcases needLength_eq_error.1 h with ⟨hlong, rfl⟩ | ⟨-, h⟩
  · exact hi hlong
  · exact hr h

/-- Every failure of a command has its cause. -/
theorem failureCause_of_commandEffect {i : Instr} {s : State} {f : Failure} (h : commandEffect i s = .error f) :
    FailureCause i s f := by
  cases i with
  | kexp =>
    by_cases hlen : KeyLenLegal s
    · rw [commandEffect_kexp_legal hlen] at h
      cases h
    · rw [commandEffect_kexp_illegal hlen] at h
      cases h
      exact .keyLength hlen
  | addrk r =>
    refine .of_needSchedule h (by simp [NeedsSchedule]) fun h => ?_
    split at h <;> cases h
    exact .roundIndex ‹_›
  | encb | decb => exact .of_needSchedule h (by simp [NeedsSchedule]) nofun
  | cbcenc =>
    refine .of_needSchedule h (by simp [NeedsSchedule]) fun h => ?_
    exact .of_needLength h (.longPlaintext (.inr rfl)) nofun
  | cbcdec =>
    refine .of_needSchedule h (by simp [NeedsSchedule]) fun h => ?_
    exact .of_needLength h (.longInput (.inr rfl)) fun h => .of_cbcDecrypt (error_of_map_eq_error h)
  | pad => exact .of_needLength h (.longPlaintext (.inl rfl)) nofun
  | strip => exact .of_needLength h (.longInput (.inl rfl)) fun h => .of_strip (error_of_map_eq_error h)
  | _ => cases h

/-- Settles O53: a command succeeds, or ends with the code and value of a failure that has its cause. -/
theorem errorCodesAndCauses : Obligations.ErrorCodesAndCauses := by
  intro i s t ht
  rw [eq_endCommand_of_exec ht]
  cases he : commandEffect i s with
  | ok e => exact .inl (by simp [endCommand])
  | error f =>
    obtain ⟨hcode, hinfo⟩ : (endCommand i (.error f) s).err = f.kind.code ∧
        (endCommand i (.error f) s).errInfo = f.info := by simp [endCommand]
    rw [hcode, hinfo]
    refine .inr ?_
    cases failureCause_of_commandEffect he with
    | keyLength h =>
      simp only [KeyLenLegal, not_or] at h
      exact .inl ⟨rfl, rfl, rfl, h⟩
    | raggedCiphertext h => exact .inr (.inl ⟨rfl, rfl, rfl, h⟩)
    | raggedInput h => exact .inr (.inr (.inl ⟨rfl, rfl, rfl, h⟩))
    | emptyInput hi h => exact .inr (.inr (.inr (.inl ⟨rfl, hi, rfl, h⟩)))
    | paddingSize hi hne hblocks hl h =>
      refine .inr (.inr (.inr (.inr (.inl ⟨rfl, hi, hne, hblocks, by rw [hl], ?_⟩))))
      rw [BitVec.toNat_setWidth_of_le (by decide)]
      exact h.imp_left fun h0 => (zeroExtend_eq_zero_iff _).2 (BitVec.eq_of_toNat_eq h0)
    | paddingBytes hi hne hblocks hl h1 h16 hle hlt hdiff =>
      refine .inr (.inr (.inr (.inr (.inr (.inl ⟨rfl, hi, hne, hblocks, by rw [hl], ?_⟩)))))
      rw [BitVec.toNat_setWidth_of_le (by decide), hl]
      exact ⟨h1, h16, _, hle, hlt, hdiff⟩
    | noSchedule hi h => exact .inr (.inr (.inr (.inr (.inr (.inr (.inl ⟨rfl, hi, rfl, h⟩))))))
    | @roundIndex r _ h =>
      exact .inr (.inr (.inr (.inr (.inr (.inr (.inr (.inl ⟨rfl, r, rfl, (BitVec.ofNat_toNat 32 r).symm, h⟩)))))))
    | longPlaintext hi h =>
      exact .inr (.inr (.inr (.inr (.inr (.inr (.inr (.inr ⟨rfl, rfl, .inl ⟨hi, h⟩⟩)))))))
    | longInput hi h =>
      exact .inr (.inr (.inr (.inr (.inr (.inr (.inr (.inr ⟨rfl, rfl, .inr ⟨hi, h⟩⟩)))))))

/-! ### What a failure leaves as it was (R230, R231, R240) -/

/-- Settles O54: a result other than success is a failure's, and each command's abort clears what R240 lists. -/
theorem failureChangesOnlyAbortRegisters : Obligations.FailureChangesOnlyAbortRegisters := by
  intro i s t ht herr
  rw [eq_endCommand_of_exec ht] at herr ⊢
  cases he : commandEffect i s with
  | ok e =>
    rw [he] at herr
    exact absurd (by simp [endCommand]) herr
  | error f => cases i <;> rfl

/-- Settles O52: the schedule check comes before every other check, and the abort is the command's own. -/
theorem noScheduleReportedFirst : Obligations.NoScheduleReportedFirst :=
  fun _ hv => ⟨fun r => exec_of_noSchedule (commandEffect_addrk_noSchedule r hv) rfl,
    exec_of_noSchedule (needSchedule_eq_error.2 (.inl ⟨hv, rfl⟩)) rfl,
    exec_of_noSchedule (needSchedule_eq_error.2 (.inl ⟨hv, rfl⟩)) rfl,
    exec_of_chainingError (commandEffect_cbcenc_noSchedule hv) rfl,
    exec_of_chainingError (commandEffect_cbcdec_noSchedule hv) rfl⟩

/-- A word that matches no row of the table does not decode. -/
theorem decode_error_of_no_match {cw : Reg32} (h : ∀ m : Mnemonic, cw &&& m.maskBits ≠ m.matchBits) :
    ∃ e, decode cw = .error e := by
  cases hd : decode cw with
  | ok i => exact absurd ((decodingFollowsMatchAndMask i.mnemonic cw).1 ⟨i, hd, rfl⟩) (h i.mnemonic)
  | error e => exact ⟨e, rfl⟩

/-- Settles O6: such a word does not decode, and serving it reports it. -/
theorem illegalWordReported : Obligations.IllegalWordReported := by
  intro s cw rest hs hmatch
  obtain ⟨e, he⟩ := decode_error_of_no_match hmatch
  exact ⟨_, by rw [step_cons s _ rest hs, serve_issue_error cw e _ he], rfl⟩

end Sys2Proof.Machine
end
